-- ==== Sys2Proof/Word.lean ====
section
/-! DEFINITION. The words of the core: bytes, addresses and the 9-bit program counter (spec/00_scope.md R7, R8, R12, R13). -/

namespace Sys2Proof

/-- A memory cell or a register value: 8 bits, unsigned (00_scope.md R7, R8). -/
abbrev Byte := BitVec 8

/-- An address of MEM, 0 to 255 (20_memory.md R40). -/
abbrev Addr := BitVec 8

/-- The program counter's and INFO's width (00_scope.md R12). -/
abbrev Word9 := BitVec 9

/-- A register number, R0 to R7 (10_state.md R22). -/
abbrev RegIdx := Fin 8

/-- `zext_9`: an 8-bit value as a 9-bit one with a zero above it (00_scope.md R14). -/
def zext9 (v : Byte) : Word9 := v.setWidth 9

end Sys2Proof
end

