-- ==== Sys2Proof/Syntax.lean ====
section
/-! DEFINITION. The instructions, one constructor per row of spec/opcode_table.json (spec/00_scope.md R3, 30_encoding.md R63, R71). -/

namespace Sys2Proof

/-- The thirteen instructions with their operands already decoded: a register operand is one of R0 to R7 (the check
of 30_encoding.md R66 has been made), an immediate is a byte (R65). -/
inductive Instr where
  /-- HLT (R100) -/
  | hlt
  /-- LDI reg, imm (R102) -/
  | ldi (reg : RegIdx) (imm : Byte)
  /-- PRN reg (R104) -/
  | prn (reg : RegIdx)
  /-- MUL regA, regB (R111) -/
  | mul (regA regB : RegIdx)
  /-- ADD regA, regB (R112) -/
  | add (regA regB : RegIdx)
  /-- CMP regA, regB (R113) -/
  | cmp (regA regB : RegIdx)
  /-- PUSH reg (R122) -/
  | push (reg : RegIdx)
  /-- POP reg (R123) -/
  | pop (reg : RegIdx)
  /-- CALL reg (R124) -/
  | call (reg : RegIdx)
  /-- RET (R125) -/
  | ret
  /-- JMP reg (R136) -/
  | jmp (reg : RegIdx)
  /-- JEQ reg (R137) -/
  | jeq (reg : RegIdx)
  /-- JNE reg (R138) -/
  | jne (reg : RegIdx)
deriving DecidableEq, Repr

end Sys2Proof
end

