-- ==== Sys2Proof/WellFormed.lean ====
section
/-! DEFINITION. The four formats and when operand bytes are well formed for one (spec/30_encoding.md R61, R65, R66, R67). -/

namespace Sys2Proof

/-- The four formats (30_encoding.md R61). -/
inductive Format where
  /-- no operand, 1 byte -/
  | z
  /-- one register operand, 2 bytes -/
  | r
  /-- register and immediate, 3 bytes -/
  | ri
  /-- two register operands, 3 bytes -/
  | rr
deriving DecidableEq, Repr

/-- How many operand bytes the format has (30_encoding.md R60, R62). -/
def Format.operandCount : Format → Nat
  | .z => 0
  | .r => 1
  | .ri => 2
  | .rr => 2

/-- 30_encoding.md R66: a register operand is the whole byte and must be 0 to 7. -/
def regByteOk (b : Byte) : Bool := b.toNat < 8

/-- 30_encoding.md R66, R67: which of the two candidate operand bytes the format checks as a register index. An
immediate and an unused byte may be anything. -/
def operandsWellFormed : Format → Byte → Byte → Bool
  | .z, _, _ => true
  | .r, opa, _ => regByteOk opa
  | .ri, opa, _ => regByteOk opa
  | .rr, opa, opb => regByteOk opa && regByteOk opb

/-- The format of an instruction (30_encoding.md R63). -/
def Instr.format : Instr → Format
  | .hlt => .z
  | .ldi _ _ => .ri
  | .prn _ => .r
  | .mul _ _ => .rr
  | .add _ _ => .rr
  | .cmp _ _ => .rr
  | .push _ => .r
  | .pop _ => .r
  | .call _ => .r
  | .ret => .z
  | .jmp _ => .r
  | .jeq _ => .r
  | .jne _ => .r

/-- Length in bytes: 1 + operand count (30_encoding.md R60). -/
def Instr.length (i : Instr) : Nat := 1 + i.format.operandCount

/-- A register number as an operand byte. -/
def regByte (r : RegIdx) : Byte := BitVec.ofNat 8 r.val

/-- The operand bytes an instruction stands for, padded with zeros to the two the fetch latches. -/
def Instr.operandBytes : Instr → Byte × Byte
  | .hlt => (0, 0)
  | .ldi r imm => (regByte r, imm)
  | .prn r => (regByte r, 0)
  | .mul a b => (regByte a, regByte b)
  | .add a b => (regByte a, regByte b)
  | .cmp a b => (regByte a, regByte b)
  | .push r => (regByte r, 0)
  | .pop r => (regByte r, 0)
  | .call r => (regByte r, 0)
  | .ret => (0, 0)
  | .jmp r => (regByte r, 0)
  | .jeq r => (regByte r, 0)
  | .jne r => (regByte r, 0)

/-- An instruction is well formed when its operand bytes are. Because `Instr` holds register numbers as `RegIdx`, every
term of `Instr` is (Laws/Decode.lean, `Instr.wellFormed_always`): the check bites on the bytes, before an `Instr`
exists. -/
def Instr.wellFormed (i : Instr) : Bool :=
  operandsWellFormed i.format i.operandBytes.1 i.operandBytes.2

end Sys2Proof
end

