-- ==== Sys2Proof/Decode.lean ====
section
/-! DEFINITION. The opcode table, the decoder on the three latched bytes, and the encoder (spec/30_encoding.md R60 to R69, 40_execution_cycle.md R84). -/

namespace Sys2Proof

/-- The operation an opcode byte selects: the mnemonic column of 30_encoding.md R63. -/
inductive Op where
  | hlt | ldi | prn | mul | add | cmp | push | pop | call | ret | jmp | jeq | jne
deriving DecidableEq, Repr

/-- THE opcode table of 30_encoding.md R63: the one place where an opcode value stands, for decoder and encoder. -/
def Op.opcode : Op → Byte
  | .hlt => 0b00000001
  | .ldi => 0b10000010
  | .prn => 0b01000111
  | .mul => 0b10100010
  | .add => 0b10100000
  | .cmp => 0b10100111
  | .push => 0b01000101
  | .pop => 0b01000110
  | .call => 0b01010000
  | .ret => 0b00010001
  | .jmp => 0b01010100
  | .jeq => 0b01010101
  | .jne => 0b01010110

/-- The rows of the table, in the document's order (R63). -/
def Op.all : List Op := [.hlt, .ldi, .prn, .mul, .add, .cmp, .push, .pop, .call, .ret, .jmp, .jeq, .jne]

/-- Decoding matches all eight bits of the opcode byte (R63, mask 0xFF). -/
def Op.ofByte? (ir : Byte) : Option Op := Op.all.find? fun op => op.opcode == ir

/-- The three bytes a cycle latches (40_execution_cycle.md R82). They are not state (10_state.md R33). -/
structure Latches where
  /-- the opcode byte, from PC -/
  ir : Byte
  /-- the first candidate operand byte, from PC + 1 -/
  opa : Byte
  /-- the second candidate operand byte, from PC + 2 -/
  opb : Byte
deriving DecidableEq, Repr

/-- The two ways decoding fails (30_encoding.md R69). -/
inductive DecodeError where
  /-- the opcode byte is none of the thirteen (R68) -/
  | illegalInstruction (opcode : Byte)
  /-- a register operand byte is 8 to 255 (R66) -/
  | registerBounds (operand : Byte)
deriving DecidableEq, Repr

/-- R66: a register operand is the whole byte; 8 to 255 is an error that reports the byte, and nothing is masked. -/
def withReg (b : Byte) (k : RegIdx → Except DecodeError Instr) : Except DecodeError Instr :=
  if h : b.toNat < 8 then k ⟨b.toNat, h⟩ else .error (.registerBounds b)

/-- The operands of the selected operation: every register operand of its format is checked, `opa` before `opb`
(R66); bytes the format does not use are ignored (R67); the immediate is the whole of `opb` (R65). -/
def Op.withOperands : Op → Byte → Byte → Except DecodeError Instr
  | .hlt, _, _ => .ok .hlt
  | .ldi, opa, opb => withReg opa fun r => .ok (.ldi r opb)
  | .prn, opa, _ => withReg opa fun r => .ok (.prn r)
  | .mul, opa, opb => withReg opa fun a => withReg opb fun b => .ok (.mul a b)
  | .add, opa, opb => withReg opa fun a => withReg opb fun b => .ok (.add a b)
  | .cmp, opa, opb => withReg opa fun a => withReg opb fun b => .ok (.cmp a b)
  | .push, opa, _ => withReg opa fun r => .ok (.push r)
  | .pop, opa, _ => withReg opa fun r => .ok (.pop r)
  | .call, opa, _ => withReg opa fun r => .ok (.call r)
  | .ret, _, _ => .ok .ret
  | .jmp, opa, _ => withReg opa fun r => .ok (.jmp r)
  | .jeq, opa, _ => withReg opa fun r => .ok (.jeq r)
  | .jne, opa, _ => withReg opa fun r => .ok (.jne r)

/-- The decode stage, total on any three bytes (30_encoding.md R69, 40_execution_cycle.md R84). -/
def decode (l : Latches) : Except DecodeError Instr :=
  match Op.ofByte? l.ir with
  | none => .error (.illegalInstruction l.ir)
  | some op => op.withOperands l.opa l.opb

/-- The operation of an instruction. -/
def Instr.op : Instr → Op
  | .hlt => .hlt
  | .ldi _ _ => .ldi
  | .prn _ => .prn
  | .mul _ _ => .mul
  | .add _ _ => .add
  | .cmp _ _ => .cmp
  | .push _ => .push
  | .pop _ => .pop
  | .call _ => .call
  | .ret => .ret
  | .jmp _ => .jmp
  | .jeq _ => .jeq
  | .jne _ => .jne

/-- The bytes of an instruction at ascending addresses: the opcode, then as many operand bytes as its format has
(30_encoding.md R60, R61). -/
def encode (i : Instr) : List Byte :=
  i.op.opcode :: [i.operandBytes.1, i.operandBytes.2].take i.format.operandCount

/-- The three latched bytes at the head of a byte sequence; a missing byte is 0. -/
def Latches.ofBytes (bs : List Byte) : Latches :=
  { ir := bs.getD 0 0, opa := bs.getD 1 0, opb := bs.getD 2 0 }

/-- The three latched bytes as a sequence at ascending addresses. -/
def Latches.bytes (l : Latches) : List Byte := [l.ir, l.opa, l.opb]

/-- The latched bytes of an instruction whose first `nbits` bits are `w`, numbered as spec/opcode_table.json numbers
them: the opcode byte is bits 7:0, the first operand byte bits 15:8, the second bits 23:16; bits above `nbits` are 0. -/
def Latches.ofTableWord (nbits w : Nat) : Latches :=
  let v := w % 2 ^ nbits
  { ir := BitVec.ofNat 8 v, opa := BitVec.ofNat 8 (v / 2 ^ 8), opb := BitVec.ofNat 8 (v / 2 ^ 16) }

/-- The instruction the decoder reads from a table word. -/
def decodeTableWord (nbits w : Nat) : Option Instr :=
  match decode (Latches.ofTableWord nbits w) with
  | .ok i => some i
  | .error _ => none

end Sys2Proof
end

