-- ==== Sys2Proof/Config.lean ====
section
/-! DEFINITION. The three configuration constants of the core (spec/00_scope.md R9, R10, R11). The spec leaves no result open (40_execution_cycle.md R88), so there is no free value here. -/

namespace Sys2Proof

/-- The constants a model takes as arguments. They are fixed for one core; State carries them because `step` and
`exec` take no other argument (DESIGN CHOICE, log entry 1). -/
structure Config where
  /-- SP_INIT: the reset value of R7 and the limit of POP and RET (R9). -/
  spInit : Byte
  /-- JUMP_COMPAT: a taken jump pushes a return address as CALL does (R10). -/
  jumpCompat : Bool
  /-- MAX_CYCLES: the optional cycle guard (R11). -/
  maxCycles : Option Nat
deriving DecidableEq, Repr

/-- The defaults: SP_INIT = 0xF4, JUMP_COMPAT = false, MAX_CYCLES = none (R9, R10, R11). -/
def Config.default : Config := { spInit := 0xF4, jumpCompat := false, maxCycles := none }

/-- R9: `1 <= SP_INIT <= 255`. -/
abbrev Config.wf (c : Config) : Prop := c.spInit ≠ 0

end Sys2Proof
end

