-- ==== Sys2Proof/Machine/State.lean ====
section
/-! DEFINITION. The whole state of the core as plain data, what can end a run, and the state after reset (spec/10_state.md R20 to R36, 60_exceptions.md R150). -/

namespace Sys2Proof.Machine

/-- RS, the run state (10_state.md R29). -/
inductive RunState where
  /-- the core executes cycles -/
  | running
  /-- stopped by HLT, the normal end of a run -/
  | halted
  /-- stopped by a fault -/
  | faulted
deriving DecidableEq, Repr

/-- CAUSE, the outcome register (10_state.md R30), by the names of 60_exceptions.md R150; its 4-bit value is `Cause.code`
(Machine/Ops.lean). The unused codes 9 to 15 have no name (DESIGN CHOICE, log entry 5). -/
inductive Cause where
  | noOutcome
  | halt
  | cycleLimit
  | illegalInstruction
  | aluUnsupported
  | memoryBounds
  | registerBounds
  | stackUnderflow
  | stackOverflow
deriving DecidableEq, Repr

/-- The faults of 60_exceptions.md R150 with what each reports. Taking one is a NEXT state (`State.takeFault`), because
R160 says what it writes. -/
inductive Trap where
  /-- start of a cycle, MAX_CYCLES cycles have completed (40_execution_cycle.md R81) -/
  | cycleLimit
  /-- decode, opcode byte not in the table (30_encoding.md R68) -/
  | illegalInstruction (opcode : Byte)
  /-- the ALU, operation tag outside ADD, MUL, CMP; no instruction raises it (42_alu.md R115) -/
  | aluUnsupported (tag : Byte)
  /-- fetch, PC + 2 > 255 (40_execution_cycle.md R83) -/
  | memoryBounds
  /-- decode, register operand byte above 7 (30_encoding.md R66) -/
  | registerBounds (operand : Byte)
  /-- SP = 0 before a decrement (43_stack_subroutine.md R121) -/
  | stackUnderflow
  /-- SP at or above SP_INIT before an increment; carries the value compared (43_stack_subroutine.md R121, R123) -/
  | stackOverflow (value : Byte)
deriving DecidableEq, Repr

/-- Reasons a step could stop outside the spec's own outcomes. There are none: every fault of 60_exceptions.md R150 has
an entry the spec describes (R160) and is taken as a next state, and no rule leaves an instruction without an effect
(40_execution_cycle.md R88). Safe: nothing the hardware does is turned into a stop. -/
inductive Fault where
deriving DecidableEq, Repr

/-- Reasons a step is refused. -/
inductive Refusal where
  /-- An instruction that has no meaning in exec yet, by its table mnemonic; raised by no arm of this model. Safe: it
  stops where the hardware goes on. -/
  | notModelled (mnemonic : String)
deriving DecidableEq, Repr

/-- MEM as a list of cells in one canonical form (`Memory.wf`): addresses strictly rising, all below 256, no cell equal
to what an unlisted address reads as (`Memory.unlisted`). -/
abbrev Memory := List Host.Cell

/-- Everything 10_state.md gives the machine, and the three configuration constants. -/
structure State where
  /-- SP_INIT, JUMP_COMPAT, MAX_CYCLES: the model's own field, changed by no step (log entry 1). -/
  cfg : Config
  /-- MEM, 256 bytes (R20) -/
  mem : Memory
  /-- R0 to R7; R7 is SP (R22, R24) -/
  regs : Vector Byte 8
  /-- PC, 9 bits (R25) -/
  pc : Word9
  /-- FL: E = bit 0, G = bit 1, L = bit 2, bits 7:3 zero (R27) -/
  fl : Byte
  /-- RS (R29) -/
  rs : RunState
  /-- CAUSE (R30) -/
  cause : Cause
  /-- INFO, 9 bits (R30) -/
  info : Word9
  /-- CYC: cycles completed without fault, counted only when MAX_CYCLES is a number (R31) -/
  cyc : Nat
  /-- OUT: the values PRN has emitted, oldest first (R32) -/
  out : List Byte
deriving DecidableEq, Repr

/-- The state after reset of a core with the given constants (10_state.md R34, 70_reset_and_hazards.md R180). -/
def State.resetWith (cfg : Config) : State :=
  { cfg := cfg, mem := [], regs := #v[0, 0, 0, 0, 0, 0, 0, cfg.spInit], pc := 0, fl := 0, rs := .running,
    cause := .noOutcome, info := 0, cyc := 0, out := [] }

/-- The state after reset with the default constants of 00_scope.md R9, R10, R11. -/
def State.reset : State := State.resetWith Config.default

end Sys2Proof.Machine
end

