-- ==== Sys2Proof/Machine/Ops.lean ====
section
/-! DEFINITION. The named operations over memory, registers, PC, SP, OUT and the outcome registers; taking a fault is one of them (spec/00_scope.md R14, 20_memory.md R42, R48, 43_stack_subroutine.md R121, 60_exceptions.md R150, R160). -/

namespace Sys2Proof.Machine

/-! ## Memory -/

/-- What a byte that nothing has written reads as: 0 (10_state.md R20, 20_memory.md R48). -/
def Memory.unlisted : Byte := 0

/-- The byte at an address. -/
def Memory.read : Memory → Nat → Byte
  | [], _ => Memory.unlisted
  | c :: m, a => if c.1 = a then c.2 else Memory.read m a

/-- The memory without any cell for an address. -/
def Memory.erase (m : Memory) (a : Nat) : Memory := m.filter fun c => c.1 != a

/-- The memory with a cell put before the first cell of a higher address. -/
def Memory.insert : Memory → Nat → Byte → Memory
  | [], a, v => [(a, v)]
  | c :: m, a, v => if a < c.1 then (a, v) :: c :: m else c :: Memory.insert m a v

/-- The memory with one byte replaced (20_memory.md R48), in canonical form again. -/
def Memory.write (m : Memory) (a : Nat) (v : Byte) : Memory :=
  if v = Memory.unlisted then m.erase a else (m.erase a).insert a v

/-- Canonical form from an address on: rising addresses from `lo`, all below 256, no unlisted value. -/
def Memory.wfFrom : Nat → Memory → Bool
  | _, [] => true
  | lo, c :: m => decide (lo ≤ c.1) && decide (c.1 < 256) && decide (c.2 ≠ Memory.unlisted) && Memory.wfFrom (c.1 + 1) m

/-- The canonical form of a memory. -/
def Memory.wf (m : Memory) : Bool := Memory.wfFrom 0 m

/-- `MemRead(a, 1)` (00_scope.md R14, 20_memory.md R42). -/
def State.memRead (s : State) (a : Addr) : Byte := Memory.read s.mem a.toNat

/-- `MemWrite(a, 1, v)` (00_scope.md R14, 20_memory.md R42). -/
def State.memWrite (s : State) (a : Addr) (v : Byte) : State := { s with mem := Memory.write s.mem a.toNat v }

/-! ## Registers, PC, FL, OUT -/

/-- SP_INDEX: the stack pointer is register 7 (00_scope.md R7, 10_state.md R24). -/
def spIndex : RegIdx := 7

/-- `x[r]` (00_scope.md R14). No register is hardwired (10_state.md R22). -/
def State.reg (s : State) (r : RegIdx) : Byte := s.regs[r]

/-- `x[r] <- v` (00_scope.md R14). -/
def State.setReg (s : State) (r : RegIdx) (v : Byte) : State := { s with regs := s.regs.set r v }

/-- `sp` (00_scope.md R14, 10_state.md R24). -/
def State.sp (s : State) : Byte := s.reg spIndex

/-- `pc <- t` (00_scope.md R14). -/
def State.setPc (s : State) (t : Word9) : State := { s with pc := t }

/-- `pc <- pc + 1 + operand count`, formed in 9 bits (40_execution_cycle.md R86, 30_encoding.md R60). -/
def State.advancePast (s : State) (f : Format) : State := s.setPc (s.pc + 1 + BitVec.ofNat 9 f.operandCount)

/-- `fl <- v` (00_scope.md R14). -/
def State.setFl (s : State) (v : Byte) : State := { s with fl := v }

/-- `Output(v)`: append to OUT (00_scope.md R14, 10_state.md R32). -/
def State.emit (s : State) (v : Byte) : State := { s with out := s.out ++ [v] }

/-- HLT's outcome: `RS <- HALTED ; CAUSE <- 1` (41_control_load_output.md R100). -/
def State.halt (s : State) : State := { s with rs := .halted, cause := .halt }

/-- A cycle completed without fault: `CYC <- CYC + 1`, only when MAX_CYCLES is a number (40_execution_cycle.md R81). -/
def State.countCycle (s : State) : State :=
  { s with cyc := if s.cfg.maxCycles.isSome then s.cyc + 1 else s.cyc }

/-! ## Taking a fault

`raise F(info)` of 60_exceptions.md R160. There is no return from it: FAULTED is terminal and the core has no
return-from-trap instruction (R161). -/

/-- The 4-bit value of CAUSE (60_exceptions.md R150). -/
def Cause.code : Cause → BitVec 4
  | .noOutcome => 0
  | .halt => 1
  | .cycleLimit => 2
  | .illegalInstruction => 3
  | .aluUnsupported => 4
  | .memoryBounds => 5
  | .registerBounds => 6
  | .stackUnderflow => 7
  | .stackOverflow => 8

/-- What CAUSE becomes with each fault (60_exceptions.md R150). -/
def Trap.cause : Trap → Cause
  | .cycleLimit => .cycleLimit
  | .illegalInstruction _ => .illegalInstruction
  | .aluUnsupported _ => .aluUnsupported
  | .memoryBounds => .memoryBounds
  | .registerBounds _ => .registerBounds
  | .stackUnderflow => .stackUnderflow
  | .stackOverflow _ => .stackOverflow

/-- What INFO becomes with each fault (60_exceptions.md R150). -/
def Trap.info : Trap → Word9
  | .cycleLimit => 0
  | .illegalInstruction opcode => zext9 opcode
  | .aluUnsupported tag => zext9 tag
  | .memoryBounds => 256
  | .registerBounds operand => zext9 operand
  | .stackUnderflow => 0
  | .stackOverflow value => zext9 value

/-- `raise F(info)`: `RS <- FAULTED ; CAUSE <- code(F) ; INFO <- info`, and nothing else (60_exceptions.md R160). -/
def State.takeFault (s : State) (t : Trap) : State := { s with rs := .faulted, cause := t.cause, info := t.info }

/-- Go on from a checked operation, or take its fault in the state the instruction started from, so that the fault is
precise (60_exceptions.md R160). -/
def State.orFault (s : State) (r : Except Trap State) : State :=
  match r with
  | .ok t => t
  | .error e => s.takeFault e

/-! ## The stack helpers of 43_stack_subroutine.md R121 -/

/-- `spdec()`: StackUnderflow when SP = 0, else SP - 1. -/
def State.spDec (s : State) : Except Trap State :=
  if s.sp = 0 then .error .stackUnderflow else .ok (s.setReg spIndex (s.sp - 1))

/-- `spinc()`: StackOverflow when SP >= SP_INIT, else SP + 1. -/
def State.spInc (s : State) : Except Trap State :=
  if s.cfg.spInit ≤ s.sp then .error (.stackOverflow s.sp) else .ok (s.setReg spIndex (s.sp + 1))

end Sys2Proof.Machine
end

