-- ==== Sys2Proof/Machine/Cycle.lean ====
section
/-! DEFINITION. The stages of a cycle around execute: cycle limit, fetch, decode, end of cycle, and what a stopped core does (spec/40_execution_cycle.md R80 to R87). -/

namespace Sys2Proof.Machine

/-- R81: MAX_CYCLES is a number and CYC >= MAX_CYCLES. -/
def State.cycleLimitReached (s : State) : Bool :=
  match s.cfg.maxCycles with
  | none => false
  | some n => decide (n ≤ s.cyc)

/-- Fetch (R82): the bytes at PC, PC + 1, PC + 2, always all three; MemoryBounds before any read when PC + 2 > 255
(R83), the sum being taken on natural numbers. -/
def State.fetch (s : State) : Except Trap Latches :=
  if 255 < s.pc.toNat + 2 then .error .memoryBounds
  else
    .ok { ir := s.memRead (s.pc.setWidth 8), opa := s.memRead ((s.pc + 1).setWidth 8),
          opb := s.memRead ((s.pc + 2).setWidth 8) }

/-- The fault a failed decode raises (R84). -/
def Trap.ofDecode : DecodeError → Trap
  | .illegalInstruction opcode => .illegalInstruction opcode
  | .registerBounds operand => .registerBounds operand

/-- Stages 0 to 2 in their order (R80, 60_exceptions.md R158): the cycle-limit check, fetch, decode. -/
def State.beginCycle (s : State) : Except Trap Instr :=
  if s.cycleLimitReached then .error .cycleLimit
  else
    match s.fetch with
    | .error t => .error t
    | .ok l =>
      match decode l with
      | .error e => .error (Trap.ofDecode e)
      | .ok i => .ok i

/-- The end of a cycle: one that did not fault counts, HLT included (R81). -/
def State.completeCycle (s : State) : State :=
  match s.rs with
  | .running => s.countCycle
  | .halted => s.countCycle
  | .faulted => s

/-- The end of a cycle applied to what execute answered. -/
def endCycle : Host.Outcome State Fault Refusal → Host.Outcome State Fault Refusal
  | .next s => .next s.completeCycle
  | .fault r => .fault r
  | .refused r => .refused r

/-- A core whose RS is HALTED or FAULTED performs no cycle and nothing changes until reset (10_state.md R29, R36;
DEDUCED, log entry 2). -/
def State.idle (s : State) : State := s

/-- Three bytes stored at PC, PC + 1, PC + 2, where the next fetch reads them; nothing where they do not exist (R83). -/
def State.storeLatches (s : State) (l : Latches) : State :=
  if 255 < s.pc.toNat + 2 then s
  else
    ((s.memWrite (s.pc.setWidth 8) l.ir).memWrite ((s.pc + 1).setWidth 8) l.opa).memWrite ((s.pc + 2).setWidth 8) l.opb

end Sys2Proof.Machine
end

