-- ==== Sys2Proof/Machine/Flags.lean ====
section
/-! DEFINITION. The flags: what CMP computes and how the three bits are read (spec/10_state.md R27, R28, 42_alu.md R113). -/

namespace Sys2Proof.Machine

/-- FL after comparing two unsigned bytes: 1 (E) if equal, 2 (G) if the first is greater, 4 (L) if it is less
(42_alu.md R113). -/
def compareFlags (a b : Byte) : Byte :=
  if a.toNat = b.toNat then 0b00000001 else if b.toNat < a.toNat then 0b00000010 else 0b00000100

/-- E, bit 0 of FL (10_state.md R27): the only bit an instruction reads (R28). -/
def State.flagE (s : State) : Bool := s.fl[0]

/-- G, bit 1 of FL (10_state.md R27): written by CMP, read by no instruction. -/
def State.flagG (s : State) : Bool := s.fl[1]

/-- L, bit 2 of FL (10_state.md R27): written by CMP, read by no instruction. -/
def State.flagL (s : State) : Bool := s.fl[2]

end Sys2Proof.Machine
end

