-- ==== Sys2Proof/Machine/Operands.lean ====
section
/-! DEFINITION. The operand forms of the instruction set: register, immediate, jump target, return address, top of stack (spec/30_encoding.md R65, R66, 20_memory.md R41, R42, 44_branch.md R135). -/

namespace Sys2Proof.Machine

/-- "reg's value": the register the operand byte names (00_scope.md R15). -/
def State.regOperand (s : State) (r : RegIdx) : Byte := s.reg r

/-- The immediate: neither extended nor scaled, the register is as wide (30_encoding.md R65). -/
def immOperand (imm : Byte) : Byte := imm

/-- The target of a jump or call: `zext_9(x[r])` (44_branch.md R135). -/
def State.targetOperand (s : State) (r : RegIdx) : Word9 := zext9 (s.reg r)

/-- The return address: the low 8 bits of PC + 2 (20_memory.md R42). -/
def State.returnAddress (s : State) : Byte := (s.pc + 2).setWidth 8

/-- The byte at the top of the stack: `MemRead(sp, 1)` (20_memory.md R41). -/
def State.stackTop (s : State) : Byte := s.memRead s.sp

/-- A store at the top of the stack: `MemWrite(sp, 1, v)` (20_memory.md R41). -/
def State.storeTop (s : State) (v : Byte) : State := s.memWrite s.sp v

end Sys2Proof.Machine
end

