-- ==== Sys2Proof/Machine/Alu.lean ====
section
/-! DEFINITION. The ALU sub-unit and MUL, ADD and CMP (spec/42_alu.md). -/

namespace Sys2Proof.Machine

/-- The ALU's operation tag (R110). A tag outside the three exists only so that R115's fault can be written down: no
instruction supplies one. -/
inductive AluTag where
  | add
  | mul
  | cmp
  /-- any other tag, numbered by a byte (DESIGN CHOICE, log entry 7) -/
  | other (tag : Byte)
deriving DecidableEq, Repr

/-- What the ALU produces: a new value for the first register, or a new value for FL (R110). -/
inductive AluResult where
  | value (v : Byte)
  | flags (fl : Byte)
deriving DecidableEq, Repr

/-- The ALU as a pure function of the tag and the two register values (R110, R114). Sum and product are formed exactly
and their low 8 bits kept (R111, R112); a tag outside the three fails (R115). -/
def alu : AluTag → Byte → Byte → Except Trap AluResult
  | .add, a, b => .ok (.value (BitVec.ofNat 8 (a.toNat + b.toNat)))
  | .mul, a, b => .ok (.value (BitVec.ofNat 8 (a.toNat * b.toNat)))
  | .cmp, a, b => .ok (.flags (compareFlags a b))
  | .other tag, _, _ => .error (.aluUnsupported tag)

/-- Write the ALU's result back: a value to the first register, flags to FL (R110). -/
def State.writeBack (s : State) (regA : RegIdx) : AluResult → State
  | .value v => s.setReg regA v
  | .flags f => s.setFl f

/-- One ALU instruction of format RR: compute, write back, `pc <- pc + 3`; the ALU's fault is precise. -/
def State.aluStep (s : State) (tag : AluTag) (regA regB : RegIdx) : State :=
  match alu tag (s.regOperand regA) (s.regOperand regB) with
  | .ok res => (s.writeBack regA res).advancePast .rr
  | .error t => s.takeFault t

/-- MUL (R111): `x[a] <- (x[a] * x[b]) mod 256 ; pc <- pc + 3`. -/
def execMul (regA regB : RegIdx) (s : State) : Host.Outcome State Fault Refusal := .next (s.aluStep .mul regA regB)

/-- ADD (R112): `x[a] <- (x[a] + x[b]) mod 256 ; pc <- pc + 3`. -/
def execAdd (regA regB : RegIdx) (s : State) : Host.Outcome State Fault Refusal := .next (s.aluStep .add regA regB)

/-- CMP (R113): `fl <- 1, 2 or 4 ; pc <- pc + 3`. -/
def execCmp (regA regB : RegIdx) (s : State) : Host.Outcome State Fault Refusal := .next (s.aluStep .cmp regA regB)

end Sys2Proof.Machine
end

