-- ==== Sys2Proof/Machine/Stack.lean ====
section
/-! DEFINITION. PUSH, POP, CALL and RET (spec/43_stack_subroutine.md). Effects are read left to right, each seeing the ones before it (R120). -/

namespace Sys2Proof.Machine

/-- PUSH's effect: `spdec() ; MemWrite(sp, 1, x[reg]) ; pc <- pc + 2`, the register read after the decrement (R120,
R122). -/
def State.push (s : State) (reg : RegIdx) : Except Trap State :=
  match s.spDec with
  | .error t => .error t
  | .ok s1 => .ok ((s1.storeTop (s1.regOperand reg)).advancePast .r)

/-- POP's effect (R123): the limit is checked before the read; then `x[reg] <- MemRead(sp, 1) ; sp <- sp + 1`, left to
right, the increment being `spinc()`. For R7 the increment starts from the loaded byte and meets the same limit; for
any other register SP is still the value already checked. -/
def State.pop (s : State) (reg : RegIdx) : Except Trap State :=
  if s.cfg.spInit ≤ s.sp then .error (.stackOverflow s.sp)
  else
    match (s.setReg reg s.stackTop).spInc with
    | .error t => .error t
    | .ok s1 => .ok (s1.advancePast .r)

/-- CALL's effect, and a taken jump's under JUMP_COMPAT (44_branch.md R139): `spdec() ; MemWrite(sp, 1, pc + 2) ;
pc <- zext_9(x[reg])` (R124). -/
def State.callTo (s : State) (reg : RegIdx) : Except Trap State :=
  match s.spDec with
  | .error t => .error t
  | .ok s1 => .ok ((s1.storeTop s1.returnAddress).setPc (s1.targetOperand reg))

/-- RET's effect: the limit is checked, then `pc <- zext_9(MemRead(sp, 1)) ; sp <- sp + 1` (R125). -/
def State.returnFrom (s : State) : Except Trap State :=
  match s.spInc with
  | .error t => .error t
  | .ok s1 => .ok (s1.setPc (zext9 s.stackTop))

/-- PUSH (R122). -/
def execPush (reg : RegIdx) (s : State) : Host.Outcome State Fault Refusal := .next (s.orFault (s.push reg))

/-- POP (R123). -/
def execPop (reg : RegIdx) (s : State) : Host.Outcome State Fault Refusal := .next (s.orFault (s.pop reg))

/-- CALL (R124). -/
def execCall (reg : RegIdx) (s : State) : Host.Outcome State Fault Refusal := .next (s.orFault (s.callTo reg))

/-- RET (R125). -/
def execRet (s : State) : Host.Outcome State Fault Refusal := .next (s.orFault s.returnFrom)

end Sys2Proof.Machine
end

