-- ==== Sys2Proof/Machine/Branch.lean ====
section
/-! DEFINITION. JMP, JEQ and JNE, with both settings of JUMP_COMPAT (spec/44_branch.md). -/

namespace Sys2Proof.Machine

/-- `jump()` of R136: `pc <- zext_9(x[reg])`, or CALL's sequence when JUMP_COMPAT is true (R139). -/
def State.jump (s : State) (reg : RegIdx) : State :=
  if s.cfg.jumpCompat then s.orFault (s.callTo reg) else s.setPc (s.targetOperand reg)

/-- A conditional jump: `jump()` when taken, else `pc <- pc + 2` (R135). -/
def State.jumpIf (s : State) (taken : Bool) (reg : RegIdx) : State :=
  if taken then s.jump reg else s.advancePast .r

/-- JMP (R136). -/
def execJmp (reg : RegIdx) (s : State) : Host.Outcome State Fault Refusal := .next (s.jump reg)

/-- JEQ (R137): taken when E is set. -/
def execJeq (reg : RegIdx) (s : State) : Host.Outcome State Fault Refusal := .next (s.jumpIf s.flagE reg)

/-- JNE (R138): taken when E is clear. -/
def execJne (reg : RegIdx) (s : State) : Host.Outcome State Fault Refusal := .next (s.jumpIf (!s.flagE) reg)

end Sys2Proof.Machine
end

