-- ==== Sys2Proof/Machine/Control.lean ====
section
/-! DEFINITION. HLT, LDI and PRN (spec/41_control_load_output.md). -/

namespace Sys2Proof.Machine

/-- HLT (R100): RS <- HALTED, CAUSE <- 1, PC unchanged. The cycle itself counts CYC, as for every instruction
(`completeCycle`). -/
def execHlt (s : State) : Host.Outcome State Fault Refusal := .next s.halt

/-- LDI (R102): `x[reg] <- imm ; pc <- pc + 3`. -/
def execLdi (reg : RegIdx) (imm : Byte) (s : State) : Host.Outcome State Fault Refusal :=
  .next ((s.setReg reg (immOperand imm)).advancePast .ri)

/-- PRN (R104): `Output(x[reg]) ; pc <- pc + 2`. -/
def execPrn (reg : RegIdx) (s : State) : Host.Outcome State Fault Refusal :=
  .next ((s.emit (s.regOperand reg)).advancePast .r)

end Sys2Proof.Machine
end

