-- ==== Sys2Proof/Machine/Dispatch.lean ====
section
/-! DEFINITION. exec: one arm per instruction, each one call of its meaning (spec/40_execution_cycle.md R85). -/

namespace Sys2Proof.Machine

def exec (i : Instr) (s : State) : Host.Outcome State Fault Refusal :=
  match i with
  | .hlt => Sys2Proof.Machine.execHlt s
  | .ldi reg imm => Sys2Proof.Machine.execLdi reg imm s
  | .prn reg => Sys2Proof.Machine.execPrn reg s
  | .mul regA regB => Sys2Proof.Machine.execMul regA regB s
  | .add regA regB => Sys2Proof.Machine.execAdd regA regB s
  | .cmp regA regB => Sys2Proof.Machine.execCmp regA regB s
  | .push reg => Sys2Proof.Machine.execPush reg s
  | .pop reg => Sys2Proof.Machine.execPop reg s
  | .call reg => Sys2Proof.Machine.execCall reg s
  | .ret => Sys2Proof.Machine.execRet s
  | .jmp reg => Sys2Proof.Machine.execJmp reg s
  | .jeq reg => Sys2Proof.Machine.execJeq reg s
  | .jne reg => Sys2Proof.Machine.execJne reg s

end Sys2Proof.Machine
end

