-- ==== Sys2Proof/Machine/Step.lean ====
section
/-! DEFINITION. One step: one whole cycle of a running core (spec/40_execution_cycle.md R80, R89), and the placement of an instruction where it is fetched. -/

namespace Sys2Proof.Machine

/-- One atomic cycle (00_scope.md R6): limit, fetch and decode, then execute and advance, then the cycle is counted. A
fault of any stage is taken in the state the cycle started from (60_exceptions.md R160). -/
def step (s : State) : Host.Outcome State Fault Refusal :=
  match s.rs with
  | .halted => .next s.idle
  | .faulted => .next s.idle
  | .running =>
    match s.beginCycle with
    | .error t => .next (s.takeFault t)
    | .ok i => endCycle (exec i s)

/-- The state with an instruction's bytes stored where the next fetch reads. It stands for the load of a program from
outside the machine (70_reset_and_hazards.md R183; log entry 11). -/
def State.withFetchWord (s : State) (nbits w : Nat) : State := s.storeLatches (Latches.ofTableWord nbits w)

end Sys2Proof.Machine
end

