-- ==== Sys2Proof/Machine/HostInterface.lean ====
section
/-! DEFINITION. What the host can do to the core and see of it: Reset, Load, Start, Output, Outcome, the text of OUT and TRACE (spec/70_reset_and_hazards.md R180 to R186, 41_control_load_output.md R105, 60_exceptions.md R171). -/

namespace Sys2Proof.Machine

/-- Reset: every piece of state back to its reset value, whatever it was; the constants stay (R180). -/
def State.hostReset (s : State) : State := State.resetWith s.cfg

/-- `MEM[a] <- b[0]`, `MEM[a + 1] <- b[1]`, and so on. -/
def Memory.writeAll : Memory → Nat → List Byte → Memory
  | m, _, [] => m
  | m, a, b :: bs => Memory.writeAll (Memory.write m a b) (a + 1) bs

/-- Load(image): the image at addresses 0, 1, 2, ... and nothing else; an image of more than 256 bytes is refused by
the loader and the core is not started (R183). -/
def State.load (s : State) (image : List Byte) : Option State :=
  if image.length ≤ 256 then some { s with mem := Memory.writeAll s.mem 0 image } else none

/-- Start changes no state; it only releases the core (R184). -/
def State.start (s : State) : State := s

/-- Outcome: the three registers the host reads (R185, R186), CAUSE as its 4-bit code. -/
def State.outcome (s : State) : RunState × BitVec 4 × Word9 := (s.rs, s.cause.code, s.info)

/-- Where the host stands in its protocol. It is no state of the core (10_state.md R29). -/
inductive Phase where
  /-- after Reset, before Load -/
  | afterReset
  /-- after Load, before Start -/
  | loaded
  /-- after Start: the core is released -/
  | started
deriving DecidableEq, Repr

/-- The core together with the host's place in the protocol. -/
structure Session where
  core : State
  phase : Phase
deriving DecidableEq, Repr

/-- What can happen between host and core (R186). Output and Outcome are reads of `State.out` and `State.outcome`. -/
inductive Transaction where
  | reset
  | load (image : List Byte)
  | start
  /-- the released core performs one cycle -/
  | cycle
deriving DecidableEq, Repr

/-- The session after a transaction, or none when R186 does not allow it: Reset at any time; Load after Reset, before
Start, once; Start once, after Load or after Reset; cycles only after Start. -/
def Session.apply (h : Session) : Transaction → Option Session
  | .reset => some { core := h.core.hostReset, phase := .afterReset }
  | .load image =>
    match h.phase with
    | .afterReset => (h.core.load image).map fun c => { core := c, phase := .loaded }
    | .loaded => none
    | .started => none
  | .start =>
    match h.phase with
    | .afterReset => some { core := h.core.start, phase := .started }
    | .loaded => some { core := h.core.start, phase := .started }
    | .started => none
  | .cycle =>
    match h.phase with
    | .afterReset => none
    | .loaded => none
    | .started =>
      match step h.core with
      | .next c => some { core := c, phase := .started }
      | .fault _ => none
      | .refused _ => none

/-- The decimal digits of a value, most significant first, no leading zeros (41_control_load_output.md R105). -/
def decimalDigits (v : Byte) : List Nat :=
  let n := v.toNat
  if n < 10 then [n] else if n < 100 then [n / 10, n % 10] else [n / 100, n / 10 % 10, n % 10]

/-- One value of OUT as a line of text: its digits and a newline (R105). -/
def renderValue (v : Byte) : List Char := (decimalDigits v).map (fun d => Char.ofNat (48 + d)) ++ ['\n']

/-- The text the host makes of OUT (R105). -/
def renderOut (out : List Byte) : List Char := out.flatMap renderValue

/-- What TRACE shows (60_exceptions.md R171); a memory byte above address 255 does not exist. -/
structure TraceView where
  pc : Word9
  fl : Byte
  nextBytes : List (Option Byte)
  regs : Vector Byte 8
deriving DecidableEq, Repr

/-- TRACE reads and changes nothing (60_exceptions.md R171). -/
def State.trace (s : State) : TraceView :=
  { pc := s.pc, fl := s.fl, regs := s.regs,
    nextBytes := [0, 1, 2].map fun k =>
      if s.pc.toNat + k < 256 then some (Memory.read s.mem (s.pc.toNat + k)) else none }

end Sys2Proof.Machine
end

