-- ==== Sys2Proof/Safety.lean ====
section
/-! DEFINITION. The terms the statements use: what a cycle finds, what an instruction leaves unchanged, the invariant of every reachable state, and how a run ends (spec/10_state.md R36, 60_exceptions.md R150, 70_reset_and_hazards.md R185). -/

namespace Sys2Proof.Machine

/-! ## What a cycle finds -/

/-- The core is running and the cycle-limit check passes: MAX_CYCLES is none or above CYC (40_execution_cycle.md R81). -/
abbrev State.mayStart (s : State) : Prop :=
  s.rs = .running ∧ s.cfg.maxCycles.all (fun n => decide (s.cyc < n)) = true

/-- A cycle may start, the three fetched addresses exist, and these are the bytes at PC, PC + 1, PC + 2
(40_execution_cycle.md R82, R83). -/
abbrev State.presents (s : State) (ir opa opb : Byte) : Prop :=
  s.mayStart ∧ s.pc.toNat ≤ 253 ∧ s.memRead (s.pc.setWidth 8) = ir ∧ s.memRead ((s.pc + 1).setWidth 8) = opa ∧
    s.memRead ((s.pc + 2).setWidth 8) = opb

/-! ## The opcode values, as numbers of 30_encoding.md R63 -/

/-- The thirteen opcode bytes, as 40_execution_cycle.md R89 lists them. -/
abbrev definedOpcodes : List Byte :=
  [0x01, 0x82, 0x47, 0xA2, 0xA0, 0xA7, 0x45, 0x46, 0x50, 0x11, 0x54, 0x55, 0x56]

/-- The opcodes whose first operand byte is a register: formats R, RI and RR. -/
abbrev regOpcodes : List Byte := [0x82, 0x47, 0xA2, 0xA0, 0xA7, 0x45, 0x46, 0x50, 0x54, 0x55, 0x56]

/-- The opcodes whose second operand byte is a register: format RR. -/
abbrev regRegOpcodes : List Byte := [0xA2, 0xA0, 0xA7]

/-! ## How an opcode byte decodes, by format (30_encoding.md R61, R66, R67) -/

/-- Format Z: the instruction, whatever the two following bytes are. -/
abbrev decodesZ (ir : Byte) (i : Instr) : Prop := ∀ opa opb, decode ⟨ir, opa, opb⟩ = .ok i

/-- Format R: the first operand byte is the register number, or RegisterBounds; the second is ignored. -/
abbrev decodesR (ir : Byte) (mk : RegIdx → Instr) : Prop :=
  ∀ opa opb, (∀ r : RegIdx, opa.toNat = r.val → decode ⟨ir, opa, opb⟩ = .ok (mk r)) ∧
    (7 < opa.toNat → decode ⟨ir, opa, opb⟩ = .error (.registerBounds opa))

/-- Format RI: the first operand byte as in format R, the second is the immediate. -/
abbrev decodesRI (ir : Byte) (mk : RegIdx → Byte → Instr) : Prop :=
  ∀ opa imm, (∀ r : RegIdx, opa.toNat = r.val → decode ⟨ir, opa, imm⟩ = .ok (mk r imm)) ∧
    (7 < opa.toNat → decode ⟨ir, opa, imm⟩ = .error (.registerBounds opa))

/-- Format RR: both operand bytes are register numbers, the first is checked first. -/
abbrev decodesRR (ir : Byte) (mk : RegIdx → RegIdx → Instr) : Prop :=
  ∀ opa opb, (∀ a b : RegIdx, opa.toNat = a.val → opb.toNat = b.val → decode ⟨ir, opa, opb⟩ = .ok (mk a b)) ∧
    (7 < opa.toNat → decode ⟨ir, opa, opb⟩ = .error (.registerBounds opa)) ∧
    (opa.toNat ≤ 7 → 7 < opb.toNat → decode ⟨ir, opa, opb⟩ = .error (.registerBounds opb))

/-! ## Faults -/

/-- The state in which a cycle that started from `s` ends when it faults (60_exceptions.md R160). -/
abbrev State.faultedWith (s : State) (cause : Cause) (info : Word9) : State :=
  { s with rs := .faulted, cause := cause, info := info }

/-- A taken jump: JMP always, JEQ when E is set, JNE when E is clear (44_branch.md R139). -/
abbrev State.takesJump (s : State) (i : Instr) (r : RegIdx) : Prop :=
  i = .jmp r ∨ (i = .jeq r ∧ s.fl[0] = true) ∨ (i = .jne r ∧ s.fl[0] = false)

/-- No stack fault: SP is not 0 before a push, SP is below SP_INIT before a pop, and for POP R7 so is the loaded byte
(43_stack_subroutine.md R121, R123, 44_branch.md R139). -/
def State.stackRoom (s : State) : Instr → Bool
  | .hlt => true
  | .ldi _ _ => true
  | .prn _ => true
  | .mul _ _ => true
  | .add _ _ => true
  | .cmp _ _ => true
  | .push _ => s.sp != 0
  | .pop r => decide (s.sp < s.cfg.spInit) && (r != 7 || decide (s.memRead s.sp < s.cfg.spInit))
  | .call _ => s.sp != 0
  | .ret => decide (s.sp < s.cfg.spInit)
  | .jmp _ => !s.cfg.jumpCompat || s.sp != 0
  | .jeq _ => !s.cfg.jumpCompat || !s.fl[0] || s.sp != 0
  | .jne _ => !s.cfg.jumpCompat || s.fl[0] || s.sp != 0

/-- Where a completed instruction leaves PC (40_execution_cycle.md R86): HLT unchanged; CALL, RET and a taken jump their
target, the operand read after SP is decremented where the instruction pushes (43_stack_subroutine.md R120, 44_branch.md
R139); every other case PC + 1 + operand count. -/
def State.pcAfter (s : State) : Instr → Word9
  | .hlt => s.pc
  | .ldi _ _ => s.pc + 3
  | .prn _ => s.pc + 2
  | .mul _ _ => s.pc + 3
  | .add _ _ => s.pc + 3
  | .cmp _ _ => s.pc + 3
  | .push _ => s.pc + 2
  | .pop _ => s.pc + 2
  | .call r => zext9 (if r = 7 then s.sp - 1 else s.reg r)
  | .ret => zext9 (s.memRead s.sp)
  | .jmp r => zext9 (if s.cfg.jumpCompat && r == 7 then s.sp - 1 else s.reg r)
  | .jeq r =>
    if s.fl[0] then zext9 (if s.cfg.jumpCompat && r == 7 then s.sp - 1 else s.reg r) else s.pc + 2
  | .jne r =>
    if s.fl[0] then s.pc + 2 else zext9 (if s.cfg.jumpCompat && r == 7 then s.sp - 1 else s.reg r)

/-! ## Frames -/

/-- Every register but the named ones reads as before. -/
abbrev State.sameRegsBut (s : State) (qs : List RegIdx) (t : State) : Prop := ∀ q, q ∉ qs → t.reg q = s.reg q

/-- Every byte of memory reads as before. -/
abbrev State.sameMemory (s t : State) : Prop := ∀ a, t.memRead a = s.memRead a

/-- Every byte of memory outside one address reads as before. -/
abbrev State.sameMemoryBut (s : State) (stored : Addr) (t : State) : Prop :=
  ∀ a, a ≠ stored → t.memRead a = s.memRead a

/-- RS, CAUSE, INFO, CYC and the configuration constants are as before. -/
abbrev State.sameControl (s t : State) : Prop :=
  t.rs = s.rs ∧ t.cause = s.cause ∧ t.info = s.info ∧ t.cyc = s.cyc ∧ t.cfg = s.cfg

/-! ## The invariant -/

/-- INFO as 60_exceptions.md R150 gives it for each cause. AluUnsupported is never the cause of a reachable state
(42_alu.md R115). -/
def Cause.infoOk (cfg : Config) : Cause → Word9 → Bool
  | .noOutcome, i => i == 0
  | .halt, i => i == 0
  | .cycleLimit, i => cfg.maxCycles.isSome && i == 0
  | .illegalInstruction, i => decide (i.toNat < 256) && (Op.ofByte? (i.setWidth 8)).isNone
  | .aluUnsupported, _ => false
  | .memoryBounds, i => i == 256
  | .registerBounds, i => decide (8 ≤ i.toNat) && decide (i.toNat < 256)
  | .stackUnderflow, i => i == 0
  | .stackOverflow, i => decide (cfg.spInit.toNat ≤ i.toNat) && decide (i.toNat < 256)

/-- The causes that go with each run state (10_state.md R30, R36). -/
def RunState.allows : RunState → Cause → Bool
  | .running, c => c == .noOutcome
  | .halted, c => c == .halt
  | .faulted, c => c != .noOutcome && c != .halt

/-- CYC never passes MAX_CYCLES, and stays 0 without it (10_state.md R31, 40_execution_cycle.md R81). -/
def State.cycOk (s : State) : Bool :=
  match s.cfg.maxCycles with
  | none => s.cyc == 0
  | some n => decide (s.cyc ≤ n)

/-- The values FL can hold (10_state.md R27). -/
abbrev flLegal (v : Byte) : Prop := v = 0 ∨ v = 1 ∨ v = 2 ∨ v = 4

/-- What every reachable state satisfies (10_state.md R36). -/
abbrev State.Inv (s : State) : Prop :=
  s.cfg.wf ∧ Memory.wf s.mem = true ∧ s.pc.toNat ≤ 256 ∧ flLegal s.fl ∧ s.rs.allows s.cause = true ∧
    s.cause.infoOk s.cfg s.info = true ∧ s.cycOk = true

/-! ## Runs -/

/-- The core after `k` steps. -/
abbrev State.run (k : Nat) (s : State) : Host.Outcome State Fault Refusal := Host.Core.run Sys2Proof.core k s

/-- A run that ended well: HLT executed (41_control_load_output.md R101). -/
abbrev State.cleanHalt (s : State) : Prop := s.rs = .halted ∧ s.cause = .halt ∧ s.info = 0

end Sys2Proof.Machine
end

