-- ==== Sys2Proof/Certificates/Slice0/Obligations.lean ====
section
/-! DEFINITION. The statements for the provers. Each docstring names the rule or section of spec/ it rests on, and where a clause is the spec's own choice or the model's it says so. -/

open Sys2Proof Sys2Proof.Machine

/-! ## Encoding and decoding -/

/-- Thirteen words written out from the bit patterns of 30_encoding.md R61 and R63 decode to their instructions. -/
def Obligations.DecodeOfWrittenWords : Prop :=
  decode ⟨0b00000001, 0b11111111, 0b11111111⟩ = .ok .hlt ∧
  decode ⟨0b10000010, 0b00000000, 0b00001000⟩ = .ok (.ldi 0 8) ∧
  decode ⟨0b01000111, 0b00000111, 0b00000001⟩ = .ok (.prn 7) ∧
  decode ⟨0b10100010, 0b00000000, 0b00000001⟩ = .ok (.mul 0 1) ∧
  decode ⟨0b10100000, 0b00000010, 0b00000101⟩ = .ok (.add 2 5) ∧
  decode ⟨0b10100111, 0b00000110, 0b00000011⟩ = .ok (.cmp 6 3) ∧
  decode ⟨0b01000101, 0b00000100, 0b00000000⟩ = .ok (.push 4) ∧
  decode ⟨0b01000110, 0b00000001, 0b11110000⟩ = .ok (.pop 1) ∧
  decode ⟨0b01010000, 0b00000001, 0b00000000⟩ = .ok (.call 1) ∧
  decode ⟨0b00010001, 0b10000000, 0b00000000⟩ = .ok .ret ∧
  decode ⟨0b01010100, 0b00000101, 0b00000000⟩ = .ok (.jmp 5) ∧
  decode ⟨0b01010101, 0b00000011, 0b00000000⟩ = .ok (.jeq 3) ∧
  decode ⟨0b01010110, 0b00000010, 0b00000000⟩ = .ok (.jne 2)

/-- 30_encoding.md R60, R61, R63, R67: decoding the bytes of any instruction gives it back, whatever two bytes follow
them in memory. Every term of Instr is well formed, so no hypothesis is needed. -/
def Obligations.DecodeOfEncode : Prop :=
  ∀ (i : Instr) (u v : Byte), decode (Latches.ofBytes (encode i ++ [u, v])) = .ok i

/-- The other direction: three bytes that decode to an instruction begin with exactly its encoding, so each instruction
has one encoding and no bit of it is dropped (30_encoding.md R61, R63, R66: no masking). -/
def Obligations.EncodeOfDecode : Prop :=
  ∀ (l : Latches) (i : Instr), decode l = .ok i → l.bytes.take i.length = encode i

/-- 30_encoding.md R69: the decoder is total. Its answer is IllegalInstruction for an opcode byte that is none of the
thirteen, RegisterBounds for the first register operand byte above 7, and otherwise an instruction with that opcode.
The whole-byte check and its order are the spec's own choice (92_eei_decisions.md D12). -/
def Obligations.DecodeTrichotomy : Prop :=
  ∀ ir opa opb : Byte,
    (ir ∉ definedOpcodes → decode ⟨ir, opa, opb⟩ = .error (.illegalInstruction ir)) ∧
    (ir ∈ regOpcodes → 7 < opa.toNat → decode ⟨ir, opa, opb⟩ = .error (.registerBounds opa)) ∧
    (ir ∈ regRegOpcodes → opa.toNat ≤ 7 → 7 < opb.toNat → decode ⟨ir, opa, opb⟩ = .error (.registerBounds opb)) ∧
    (ir ∈ definedOpcodes → (ir ∈ regOpcodes → opa.toNat ≤ 7) → (ir ∈ regRegOpcodes → opb.toNat ≤ 7) →
      ∃ i, decode ⟨ir, opa, opb⟩ = .ok i ∧ i.op.opcode = ir ∧ operandsWellFormed i.format opa opb = true)

/-! ## One statement per instruction: its encoding, its result, its frame

Each holds for every register operand, R7 included, and for every state. -/

/-- 41_control_load_output.md R100: HLT stops the core and changes nothing else; the completed cycle counts. That PC is
left unchanged is the spec's own choice (92_eei_decisions.md D11). -/
def Obligations.HltHalts : Prop :=
  decodesZ 0x01 .hlt ∧
  (∀ s, exec .hlt s = .next { s with rs := .halted, cause := .halt }) ∧
  ∀ s opa opb, s.presents 0x01 opa opb →
    step s = .next { s with rs := .halted, cause := .halt, cyc := s.cyc + (if s.cfg.maxCycles.isSome then 1 else 0) }

/-- 41_control_load_output.md R102, 30_encoding.md R65: LDI writes the immediate byte to the register and advances PC
by 3; no flag, no memory, no output. RegisterBounds above 7 is the spec's own choice (30_encoding.md R66,
92_eei_decisions.md D12). -/
def Obligations.LdiLoadsImmediate : Prop :=
  decodesRI 0x82 .ldi ∧
  ∀ (r : RegIdx) (imm : Byte) (s : State), ∃ t, exec (.ldi r imm) s = .next t ∧
    t.reg r = imm ∧ t.pc = s.pc + 3 ∧ s.sameRegsBut [r] t ∧ s.sameMemory t ∧ t.fl = s.fl ∧ t.out = s.out ∧
    s.sameControl t

/-- 41_control_load_output.md R104: PRN appends the register's value to OUT and advances PC by 2. That the output
never refuses a value is the spec's own choice (92_eei_decisions.md D16). RegisterBounds above 7 is the spec's own
choice (30_encoding.md R66, 92_eei_decisions.md D12). -/
def Obligations.PrnAppendsValue : Prop :=
  decodesR 0x47 .prn ∧
  ∀ (r : RegIdx) (s : State), ∃ t, exec (.prn r) s = .next t ∧
    t.out = s.out ++ [s.reg r] ∧ t.pc = s.pc + 2 ∧ s.sameRegsBut [] t ∧ s.sameMemory t ∧ t.fl = s.fl ∧ s.sameControl t

/-- 42_alu.md R111, R114: MUL keeps the low 8 bits of the product. Width and wrap are the spec's own choice
(92_eei_decisions.md D1, D2). RegisterBounds above 7, the first operand first, is the spec's own choice
(30_encoding.md R66, 92_eei_decisions.md D12). -/
def Obligations.MulKeepsLowByte : Prop :=
  decodesRR 0xA2 .mul ∧
  ∀ (a b : RegIdx) (s : State), ∃ t, exec (.mul a b) s = .next t ∧
    (t.reg a).toNat = (s.reg a).toNat * (s.reg b).toNat % 256 ∧ t.pc = s.pc + 3 ∧ s.sameRegsBut [a] t ∧
    s.sameMemory t ∧ t.fl = s.fl ∧ t.out = s.out ∧ s.sameControl t

/-- 42_alu.md R112, R114: ADD keeps the low 8 bits of the sum and writes no flag. Width and wrap are the spec's own
choice (92_eei_decisions.md D1, D2). RegisterBounds above 7, the first operand first, is the spec's own choice
(30_encoding.md R66, 92_eei_decisions.md D12). -/
def Obligations.AddKeepsLowByte : Prop :=
  decodesRR 0xA0 .add ∧
  ∀ (a b : RegIdx) (s : State), ∃ t, exec (.add a b) s = .next t ∧
    (t.reg a).toNat = ((s.reg a).toNat + (s.reg b).toNat) % 256 ∧ t.pc = s.pc + 3 ∧ s.sameRegsBut [a] t ∧
    s.sameMemory t ∧ t.fl = s.fl ∧ t.out = s.out ∧ s.sameControl t

/-- 42_alu.md R113: CMP writes the whole of FL, one bit set, by the unsigned relation of the first register to the
second; no register is written. RegisterBounds above 7, the first operand first, is the spec's own choice
(30_encoding.md R66, 92_eei_decisions.md D12). -/
def Obligations.CmpSetsOneFlag : Prop :=
  decodesRR 0xA7 .cmp ∧
  ∀ (a b : RegIdx) (s : State), ∃ t, exec (.cmp a b) s = .next t ∧
    ((s.reg a).toNat = (s.reg b).toNat → t.fl = 0b00000001) ∧
    ((s.reg b).toNat < (s.reg a).toNat → t.fl = 0b00000010) ∧
    ((s.reg a).toNat < (s.reg b).toNat → t.fl = 0b00000100) ∧
    t.pc = s.pc + 3 ∧ s.sameRegsBut [] t ∧ s.sameMemory t ∧ t.out = s.out ∧ s.sameControl t

/-- 43_stack_subroutine.md R122: PUSH decrements SP and stores the register at the new top of stack; PUSH R7 stores
the decremented SP; SP = 0 is StackUnderflow and nothing else changes. The R7 case and the predicate SP = 0 are the
spec's own choice (92_eei_decisions.md D13, D14). RegisterBounds above 7 is the spec's own choice (30_encoding.md
R66, 92_eei_decisions.md D12). -/
def Obligations.PushStoresAtNewTop : Prop :=
  decodesR 0x45 .push ∧
  ∀ (r : RegIdx) (s : State),
    (s.sp = 0 → exec (.push r) s = .next (s.faultedWith .stackUnderflow 0)) ∧
    (s.sp ≠ 0 → ∃ t, exec (.push r) s = .next t ∧
      t.sp = s.sp - 1 ∧ t.memRead (s.sp - 1) = (if r = 7 then s.sp - 1 else s.reg r) ∧ t.pc = s.pc + 2 ∧
      s.sameRegsBut [7] t ∧ s.sameMemoryBut (s.sp - 1) t ∧ t.fl = s.fl ∧ t.out = s.out ∧ s.sameControl t)

/-- 43_stack_subroutine.md R123: POP loads the register from the top of stack and increments SP; POP R7 ends with the
loaded byte plus one; SP at or above SP_INIT, and for POP R7 the loaded byte at or above it, is StackOverflow; no
byte of memory changes. The R7 case and the predicate SP >= SP_INIT are the spec's own choice (92_eei_decisions.md
D13, D14). RegisterBounds above 7 is the spec's own choice (30_encoding.md R66, 92_eei_decisions.md D12). -/
def Obligations.PopLoadsTop : Prop :=
  decodesR 0x46 .pop ∧
  ∀ (r : RegIdx) (s : State),
    (s.cfg.spInit ≤ s.sp → exec (.pop r) s = .next (s.faultedWith .stackOverflow (zext9 s.sp))) ∧
    (s.sp < s.cfg.spInit → r ≠ 7 → ∃ t, exec (.pop r) s = .next t ∧
      t.reg r = s.memRead s.sp ∧ t.sp = s.sp + 1 ∧ t.pc = s.pc + 2 ∧
      s.sameRegsBut [r, 7] t ∧ s.sameMemory t ∧ t.fl = s.fl ∧ t.out = s.out ∧ s.sameControl t) ∧
    (s.sp < s.cfg.spInit → r = 7 → s.cfg.spInit ≤ s.memRead s.sp →
      exec (.pop r) s = .next (s.faultedWith .stackOverflow (zext9 (s.memRead s.sp)))) ∧
    (s.sp < s.cfg.spInit → r = 7 → s.memRead s.sp < s.cfg.spInit → ∃ t, exec (.pop r) s = .next t ∧
      t.sp = s.memRead s.sp + 1 ∧ t.pc = s.pc + 2 ∧
      s.sameRegsBut [7] t ∧ s.sameMemory t ∧ t.fl = s.fl ∧ t.out = s.out ∧ s.sameControl t)

/-- 43_stack_subroutine.md R124: CALL pushes the address of the next instruction and jumps to the register's value;
CALL R7 jumps to the decremented SP; SP = 0 is StackUnderflow. The byte stored is PC + 2 wherever a CALL can be
fetched. The R7 case and the predicate SP = 0 are the spec's own choice (92_eei_decisions.md D13, D14).
RegisterBounds above 7 is the spec's own choice (30_encoding.md R66, 92_eei_decisions.md D12). -/
def Obligations.CallPushesReturnAddress : Prop :=
  decodesR 0x50 .call ∧
  ∀ (r : RegIdx) (s : State),
    (s.sp = 0 → exec (.call r) s = .next (s.faultedWith .stackUnderflow 0)) ∧
    (s.sp ≠ 0 → ∃ t, exec (.call r) s = .next t ∧
      t.sp = s.sp - 1 ∧ (s.pc.toNat ≤ 253 → (t.memRead (s.sp - 1)).toNat = s.pc.toNat + 2) ∧
      t.pc = zext9 (if r = 7 then s.sp - 1 else s.reg r) ∧
      s.sameRegsBut [7] t ∧ s.sameMemoryBut (s.sp - 1) t ∧ t.fl = s.fl ∧ t.out = s.out ∧ s.sameControl t)

/-- 43_stack_subroutine.md R125: RET pops the top of stack into PC; SP at or above SP_INIT is StackOverflow; no byte of
memory changes. The predicate SP >= SP_INIT is the spec's own choice (92_eei_decisions.md D14). -/
def Obligations.RetPopsIntoPc : Prop :=
  decodesZ 0x11 .ret ∧
  ∀ s : State,
    (s.cfg.spInit ≤ s.sp → exec .ret s = .next (s.faultedWith .stackOverflow (zext9 s.sp))) ∧
    (s.sp < s.cfg.spInit → ∃ t, exec .ret s = .next t ∧
      t.pc = zext9 (s.memRead s.sp) ∧ t.sp = s.sp + 1 ∧
      s.sameRegsBut [7] t ∧ s.sameMemory t ∧ t.fl = s.fl ∧ t.out = s.out ∧ s.sameControl t)

/-- 44_branch.md R136: JMP sets PC to the register's value and touches nothing else; with JUMP_COMPAT true it does
CALL's sequence with its own operand (R139), which is the spec's own parameter (92_eei_decisions.md D4).
RegisterBounds above 7 is the spec's own choice (30_encoding.md R66, 92_eei_decisions.md D12). -/
def Obligations.JmpSetsPc : Prop :=
  decodesR 0x54 .jmp ∧
  ∀ (r : RegIdx) (s : State),
    (s.cfg.jumpCompat = true → exec (.jmp r) s = exec (.call r) s) ∧
    (s.cfg.jumpCompat = false → ∃ t, exec (.jmp r) s = .next t ∧
      t.pc = zext9 (s.reg r) ∧ s.sameRegsBut [] t ∧ s.sameMemory t ∧ t.fl = s.fl ∧ t.out = s.out ∧ s.sameControl t)

/-- 44_branch.md R137: JEQ with bit 0 of FL set does what JMP does with the same operand; otherwise PC + 2 and
nothing else, with either setting of JUMP_COMPAT. FL is not changed, and only bit 0 of it is read. That a JEQ that is
not taken pushes nothing with JUMP_COMPAT true is the spec's own reading (44_branch.md R139, 92_eei_decisions.md D4).
RegisterBounds above 7 is the spec's own choice (30_encoding.md R66, 92_eei_decisions.md D12). -/
def Obligations.JeqTestsEqual : Prop :=
  decodesR 0x55 .jeq ∧
  ∀ (r : RegIdx) (s : State),
    (s.fl[0] = true → exec (.jeq r) s = exec (.jmp r) s) ∧
    (s.fl[0] = true → s.cfg.jumpCompat = false → ∃ t, exec (.jeq r) s = .next t ∧
      t.pc = zext9 (s.reg r) ∧ s.sameRegsBut [] t ∧ s.sameMemory t ∧ t.fl = s.fl ∧ t.out = s.out ∧ s.sameControl t) ∧
    (s.fl[0] = false → ∃ t, exec (.jeq r) s = .next t ∧
      t.pc = s.pc + 2 ∧ s.sameRegsBut [] t ∧ s.sameMemory t ∧ t.fl = s.fl ∧ t.out = s.out ∧ s.sameControl t) ∧
    ∀ (f : Byte) (t : State), f[0] = s.fl[0] → exec (.jeq r) s = .next t →
      t.fl = s.fl ∧ exec (.jeq r) { s with fl := f } = .next { t with fl := f }

/-- 44_branch.md R138: JNE with bit 0 of FL clear does what JMP does with the same operand; otherwise PC + 2 and
nothing else, with either setting of JUMP_COMPAT. FL is not changed, and only bit 0 of it is read. That a JNE that is
not taken pushes nothing with JUMP_COMPAT true is the spec's own reading (44_branch.md R139, 92_eei_decisions.md D4).
RegisterBounds above 7 is the spec's own choice (30_encoding.md R66, 92_eei_decisions.md D12). -/
def Obligations.JneTestsNotEqual : Prop :=
  decodesR 0x56 .jne ∧
  ∀ (r : RegIdx) (s : State),
    (s.fl[0] = false → exec (.jne r) s = exec (.jmp r) s) ∧
    (s.fl[0] = false → s.cfg.jumpCompat = false → ∃ t, exec (.jne r) s = .next t ∧
      t.pc = zext9 (s.reg r) ∧ s.sameRegsBut [] t ∧ s.sameMemory t ∧ t.fl = s.fl ∧ t.out = s.out ∧ s.sameControl t) ∧
    (s.fl[0] = true → ∃ t, exec (.jne r) s = .next t ∧
      t.pc = s.pc + 2 ∧ s.sameRegsBut [] t ∧ s.sameMemory t ∧ t.fl = s.fl ∧ t.out = s.out ∧ s.sameControl t) ∧
    ∀ (f : Byte) (t : State), f[0] = s.fl[0] → exec (.jne r) s = .next t →
      t.fl = s.fl ∧ exec (.jne r) { s with fl := f } = .next { t with fl := f }

/-- 44_branch.md R139: under JUMP_COMPAT a taken JMP, JEQ or JNE pushes the address of the next instruction before it
jumps, or raises StackUnderflow when SP = 0. The behaviour is selected by the spec's own parameter (92_eei_decisions.md
D4). -/
def Obligations.CompatJumpPushes : Prop :=
  ∀ (i : Instr) (r : RegIdx) (s : State), s.cfg.jumpCompat = true → s.takesJump i r →
    (s.sp = 0 → exec i s = .next (s.faultedWith .stackUnderflow 0)) ∧
    (s.sp ≠ 0 → ∃ t, exec i s = .next t ∧
      t.sp = s.sp - 1 ∧ (s.pc.toNat ≤ 253 → (t.memRead (s.sp - 1)).toNat = s.pc.toNat + 2) ∧
      t.pc = zext9 (if r = 7 then s.sp - 1 else s.reg r) ∧
      s.sameRegsBut [7] t ∧ s.sameMemoryBut (s.sp - 1) t ∧ t.fl = s.fl ∧ t.out = s.out ∧ s.sameControl t)

/-- 30_encoding.md R65: LDI is the only instruction with an immediate. It is the whole second operand byte, every value
is legal, and the register receives it unchanged. -/
def Obligations.ImmediateIsWholeByte : Prop :=
  (∀ (l : Latches) (i : Instr), decode l = .ok i → i.format = .ri → l.ir = 0x82 ∧ ∃ r, i = .ldi r l.opb) ∧
  (∀ (r : RegIdx) (imm : Byte), decode ⟨0x82, regByte r, imm⟩ = .ok (.ldi r imm)) ∧
  ∀ (r : RegIdx) (imm : Byte) (s : State), ∃ t, exec (.ldi r imm) s = .next t ∧ (t.reg r).toNat = imm.toNat

/-- 42_alu.md R110: the ALU is a pure function of its operation and the two registers. Two states that agree on the two
registers, whatever their flags, memory, PC and other registers, get the same result: a value for the first register and
no other register and no flag from ADD and MUL, flags and no register from CMP. No byte of memory changes, and PC only
advances past the three bytes. The opcode alone selects the operation, and no other opcode reaches the ALU. -/
def Obligations.AluIsPure : Prop :=
  (∀ (i : Instr) (a b : RegIdx) (s s' : State), i = .add a b ∨ i = .mul a b → s'.reg a = s.reg a → s'.reg b = s.reg b →
    ∃ t t', exec i s = .next t ∧ exec i s' = .next t' ∧ t'.reg a = t.reg a ∧ t.fl = s.fl ∧ t'.fl = s'.fl ∧
      s.sameRegsBut [a] t ∧ s'.sameRegsBut [a] t' ∧ s.sameMemory t ∧ s'.sameMemory t' ∧
      t.pc = s.pc + 3 ∧ t'.pc = s'.pc + 3) ∧
  (∀ (a b : RegIdx) (s s' : State), s'.reg a = s.reg a → s'.reg b = s.reg b →
    ∃ t t', exec (.cmp a b) s = .next t ∧ exec (.cmp a b) s' = .next t' ∧ t'.fl = t.fl ∧
      s.sameRegsBut [] t ∧ s'.sameRegsBut [] t' ∧ s.sameMemory t ∧ s'.sameMemory t' ∧
      t.pc = s.pc + 3 ∧ t'.pc = s'.pc + 3) ∧
  ∀ (l : Latches) (i : Instr), decode l = .ok i →
    ((∃ a b, i = .add a b) ↔ l.ir = 0xA0) ∧ ((∃ a b, i = .mul a b) ↔ l.ir = 0xA2) ∧
      ((∃ a b, i = .cmp a b) ↔ l.ir = 0xA7)

/-! ## A cycle as a whole -/

/-- A step runs the decoded instruction (40_execution_cycle.md R80, R82, R84, R85): when the bytes at PC decode, a
running core's step is exec of that instruction, and a cycle that did not fault is counted when MAX_CYCLES is a
number. -/
def Obligations.StepRunsDecoded : Prop :=
  ∀ (s t : State) (ir opa opb : Byte) (i : Instr), s.presents ir opa opb → decode ⟨ir, opa, opb⟩ = .ok i →
    exec i s = .next t →
    step s = .next (if t.rs = .faulted ∨ s.cfg.maxCycles = none then t else { t with cyc := t.cyc + 1 })

/-- 30_encoding.md R68, 60_exceptions.md R151: every opcode byte not in the table raises IllegalInstruction with INFO
= the opcode byte; PC is unchanged and the core does not go on. That everything else is unchanged too is the spec's
own choice (60_exceptions.md R160, 92_eei_decisions.md D9). -/
def Obligations.IllegalOpcodeFaults : Prop :=
  ∀ (s : State) (ir opa opb : Byte), s.presents ir opa opb → ir ∉ definedOpcodes →
    step s = .next (s.faultedWith .illegalInstruction (zext9 ir))

/-- 60_exceptions.md R158: the fault a running core's cycle reports, in the order of the stages. Order, predicates and
codes are the spec's own choice (92_eei_decisions.md D5, D8, D12, D14, D15). -/
def Obligations.FaultPriority : Prop :=
  ∀ s : State, s.rs = .running →
    (∀ n, s.cfg.maxCycles = some n → n ≤ s.cyc → step s = .next (s.faultedWith .cycleLimit 0)) ∧
    (s.mayStart → 253 < s.pc.toNat → step s = .next (s.faultedWith .memoryBounds 256)) ∧
    ∀ ir opa opb, s.presents ir opa opb →
      (ir ∉ definedOpcodes → step s = .next (s.faultedWith .illegalInstruction (zext9 ir))) ∧
      (ir ∈ regOpcodes → 7 < opa.toNat → step s = .next (s.faultedWith .registerBounds (zext9 opa))) ∧
      (ir ∈ regRegOpcodes → opa.toNat ≤ 7 → 7 < opb.toNat →
        step s = .next (s.faultedWith .registerBounds (zext9 opb))) ∧
      (ir = 0x45 ∨ ir = 0x50 ∨ (s.cfg.jumpCompat = true ∧ (ir = 0x54 ∨ (ir = 0x55 ∧ s.fl[0] = true) ∨
          (ir = 0x56 ∧ s.fl[0] = false))) →
        opa.toNat ≤ 7 → s.sp = 0 → step s = .next (s.faultedWith .stackUnderflow 0)) ∧
      (ir = 0x11 ∨ (ir = 0x46 ∧ opa.toNat ≤ 7) → s.cfg.spInit ≤ s.sp →
        step s = .next (s.faultedWith .stackOverflow (zext9 s.sp))) ∧
      (ir = 0x46 → opa = 7 → s.sp < s.cfg.spInit → s.cfg.spInit ≤ s.memRead s.sp →
        step s = .next (s.faultedWith .stackOverflow (zext9 (s.memRead s.sp))))

/-- 60_exceptions.md R157: nothing else is a fault. A running core whose bytes at PC decode, and whose stack has room
where the instruction uses it, completes the cycle; HLT halts and every other instruction goes on running. -/
def Obligations.NoOtherFault : Prop :=
  ∀ (s : State) (ir opa opb : Byte) (i : Instr), s.presents ir opa opb → decode ⟨ir, opa, opb⟩ = .ok i →
    s.stackRoom i = true →
    ∃ t, step s = .next t ∧ t.rs = (if i = .hlt then .halted else .running)

/-- 60_exceptions.md R160: a cycle that ends in a fault changed RS, CAUSE and INFO and nothing else, and CAUSE is a
fault code 2 to 8. Precision is the spec's own choice (92_eei_decisions.md D9). -/
def Obligations.FaultsArePrecise : Prop :=
  ∀ s t : State, s.rs = .running → step s = .next t → t.rs = .faulted →
    t = s.faultedWith t.cause t.info ∧ 2 ≤ t.cause.code.toNat ∧ t.cause.code.toNat ≤ 8

/-- 40_execution_cycle.md R86: where a cycle that did not fault leaves PC. HLT leaving PC unchanged is the spec's own
choice (92_eei_decisions.md D11). -/
def Obligations.PcLaw : Prop :=
  ∀ (s t : State) (ir opa opb : Byte) (i : Instr), s.presents ir opa opb → decode ⟨ir, opa, opb⟩ = .ok i →
    step s = .next t → t.rs ≠ .faulted → t.pc = s.pcAfter i

/-- 10_state.md R25, R26: PC never wraps. A cycle can reach 256 only by a three-byte instruction at 253, and a
three-byte instruction completed there does reach it. The width and the value 256 are the spec's own choice
(92_eei_decisions.md D6). -/
def Obligations.PcReaches256OnlyFrom253 : Prop :=
  ∀ s t : State, s.pc.toNat ≤ 255 → step s = .next t →
    t.pc.toNat ≤ 256 ∧ (t.pc = 256 → s.pc = 253 ∧ s.memRead 253 ∈ ([0x82, 0xA2, 0xA0, 0xA7] : List Byte)) ∧
      (s.rs = .running → s.pc = 253 → s.memRead 253 ∈ ([0x82, 0xA2, 0xA0, 0xA7] : List Byte) → t.rs ≠ .faulted →
        t.pc = 256)

/-- 40_execution_cycle.md R81: the guard. It stops a cycle before the fetch once MAX_CYCLES cycles have completed;
otherwise a cycle that does not fault counts one and a faulting one none; without the guard nothing is counted. The
guard is the spec's own parameter (92_eei_decisions.md D5). -/
def Obligations.CycleGuardCounts : Prop :=
  ∀ s t : State, s.rs = .running → step s = .next t →
    (s.cfg.maxCycles = none → t.cyc = s.cyc ∧ (s.cause ≠ .cycleLimit → t.cause ≠ .cycleLimit)) ∧
    ∀ n, s.cfg.maxCycles = some n →
      (n ≤ s.cyc → t = s.faultedWith .cycleLimit 0) ∧
      (s.cyc < n → (t.rs = .faulted → t.cyc = s.cyc) ∧ (t.rs ≠ .faulted → t.cyc = s.cyc + 1))

/-- 00_scope.md R11: with MAX_CYCLES a number every run ends. From any state, as many steps as the guard leaves plus one
bring the core out of RUNNING, and CYC never passes MAX_CYCLES (92_eei_decisions.md D5). -/
def Obligations.CycleGuardStopsEveryRun : Prop :=
  ∀ (n k : Nat) (s : State), s.cfg.maxCycles = some n → s.cyc ≤ n → n < s.cyc + k →
    ∃ t, State.run k s = .next t ∧ t.rs ≠ .running ∧ t.cyc ≤ n

/-- 10_state.md R29, R36, 60_exceptions.md R161: HALTED and FAULTED are terminal; no number of steps changes anything.
That a step of a stopped core answers the same state, rather than stopping the run, is the model's choice (log entry
2). -/
def Obligations.StoppedCoreNeverMoves : Prop :=
  ∀ (k : Nat) (s : State), s.rs ≠ .running → State.run k s = .next s

/-- 40_execution_cycle.md R88, 30_encoding.md R69: every step from every state answers a next state: no instruction,
no byte and no state stops the model outside the spec's own outcomes. That a stopped core's step answers the same
state and that every fault is a next state are the model's readings (log entries 2 and 3). -/
def Obligations.StepAlwaysAnswersNext : Prop :=
  ∀ (k : Nat) (s : State), ∃ t, State.run k s = .next t

/-! ## Invariants -/

/-- 10_state.md R36: every step keeps the invariant. -/
def Obligations.StepKeepsInvariant : Prop :=
  ∀ s t : State, s.Inv → step s = .next t → t.Inv

/-- 10_state.md R34, R36: the reset state of a core with any legal constants meets the invariant. -/
def Obligations.ResetMeetsInvariant : Prop :=
  State.reset.Inv ∧ ∀ cfg : Config, cfg.wf → (State.resetWith cfg).Inv

/-- 10_state.md R36: in every reachable state, that is after reset with any legal constants, the load of any image
and any number of steps, the invariant holds; and from there OUT only grows, and nothing moves once the core has
stopped. That a step of a stopped core answers the same state is the model's choice (log entry 2). -/
def Obligations.ReachableStatesMeetInvariant : Prop :=
  ∀ (cfg : Config) (image : List Byte) (t u : State) (j k : Nat), cfg.wf → (State.resetWith cfg).load image = some t →
    State.run j t = .next u →
    u.Inv ∧ ∃ v, State.run k u = .next v ∧ u.out <+: v.out ∧ (u.rs ≠ .running → v = u)

/-- The configuration constants never change (the model holds them in State, log entry 1). -/
def Obligations.ConstantsNeverChange : Prop :=
  ∀ (k : Nat) (s t : State), State.run k s = .next t → t.cfg = s.cfg

/-! ## Whole-machine rules -/

/-- 10_state.md R28: FL is set only by CMP, which writes the whole of it; JEQ and JNE read bit 0 and nothing else; no
other instruction reads FL, and none moves it to a register, to memory or anywhere else. -/
def Obligations.FlagsSetByCmpReadByBranches : Prop :=
  (∀ (i : Instr) (s t : State), exec i s = .next t → (∀ a b, i ≠ .cmp a b) → t.fl = s.fl) ∧
  (∀ (a b : RegIdx) (s : State) (f : Byte), exec (.cmp a b) { s with fl := f } = exec (.cmp a b) s) ∧
  ∀ (i : Instr) (s t : State) (f : Byte), (∀ a b, i ≠ .cmp a b) →
    ((∃ r, i = .jeq r ∨ i = .jne r) → f[0] = s.fl[0]) →
    exec i s = .next t → exec i { s with fl := f } = .next { t with fl := f }

/-- 10_state.md R21: during a run memory is written only by PUSH, CALL and, with JUMP_COMPAT, a taken jump, and only at
the decremented SP; POP and RET write none. -/
def Obligations.MemoryWrittenOnlyByPushes : Prop :=
  ∀ (i : Instr) (s t : State) (a : Addr), exec i s = .next t → t.memRead a ≠ s.memRead a →
    a = s.sp - 1 ∧ s.sp ≠ 0 ∧
      ∃ r, i = .push r ∨ i = .call r ∨ (s.cfg.jumpCompat = true ∧ s.takesJump i r)

/-- 10_state.md R23: the registers an instruction can change. -/
def Obligations.RegistersWritten : Prop :=
  ∀ (i : Instr) (s t : State) (q : RegIdx), exec i s = .next t → t.reg q ≠ s.reg q →
    (∃ imm, i = .ldi q imm) ∨ (∃ b, i = .mul q b ∨ i = .add q b) ∨ i = .pop q ∨
      (q = 7 ∧ (i = .ret ∨ ∃ r, i = .push r ∨ i = .pop r ∨ i = .call r ∨
        (s.cfg.jumpCompat = true ∧ s.takesJump i r)))

/-- 10_state.md R32: OUT is appended to by PRN, one value, and by nothing else. Holding the stream as a list is the
spec's own choice (92_eei_decisions.md D16). -/
def Obligations.OutWrittenOnlyByPrn : Prop :=
  ∀ s t : State, step s = .next t →
    t.out = s.out ∨ ∃ (r : RegIdx) (opb : Byte), s.presents 0x47 (regByte r) opb ∧ t.out = s.out ++ [s.reg r]

/-- 10_state.md R32: nothing in the core reads OUT. Two cores that differ only in OUT take the same step and append the
same values. -/
def Obligations.OutIsNotRead : Prop :=
  ∀ (s t : State) (other : List Byte), step s = .next t →
    ∃ new, t.out = s.out ++ new ∧ step { s with out := other } = .next { t with out := other ++ new }

/-- 42_alu.md R115, 60_exceptions.md R152: an operation tag outside ADD, MUL, CMP fails with AluUnsupported and changes
nothing else, and no step of the core ever raises it. How such a tag is numbered is the model's choice (log entry 7). -/
def Obligations.AluUnsupportedNeverRaised : Prop :=
  (∀ (s : State) (tag : Byte) (a b : RegIdx),
    s.aluStep (.other tag) a b = s.faultedWith .aluUnsupported (zext9 tag)) ∧
  ∀ s t : State, step s = .next t → s.cause ≠ .aluUnsupported → t.cause ≠ .aluUnsupported

/-- 20_memory.md R53: a byte stored by PUSH or CALL is seen by the fetch of the very next cycle, wherever it lies in the
three fetched bytes; the instruction that stored it was the one latched before. -/
def Obligations.StoreSeenByNextFetch : Prop :=
  ∀ (s t : State) (ir opb : Byte) (r : RegIdx), ir = 0x45 ∨ ir = 0x50 → s.presents ir (regByte r) opb → s.sp ≠ 0 →
    step s = .next t → t.pc.toNat ≤ 253 →
    ∃ l stored, t.fetch = .ok l ∧
      (ir = 0x45 → stored = if r = 7 then s.sp - 1 else s.reg r) ∧ (ir = 0x50 → stored.toNat = s.pc.toNat + 2) ∧
      (t.pc.setWidth 8 = s.sp - 1 → l.ir = stored) ∧ ((t.pc + 1).setWidth 8 = s.sp - 1 → l.opa = stored) ∧
      ((t.pc + 2).setWidth 8 = s.sp - 1 → l.opb = stored)

/-! ## Properties of pairs of instructions -/

/-- 43_stack_subroutine.md R126 (a): PUSH then POP into a different register carries the value over and brings SP back,
for SP in 1..SP_INIT and registers other than R7. -/
def Obligations.PushPopRoundTrip : Prop :=
  ∀ (s : State) (p q : RegIdx), p ≠ 7 → q ≠ 7 → p ≠ q → s.sp ≠ 0 → s.sp ≤ s.cfg.spInit →
    ∃ t u, exec (.push p) s = .next t ∧ exec (.pop q) t = .next u ∧
      u.reg q = s.reg p ∧ u.sp = s.sp ∧ u.pc = s.pc + 4 ∧ s.sameRegsBut [q] u

/-- 43_stack_subroutine.md R126 (b): CALL, then any computation that leaves SP where CALL put it and keeps the stack cell
that holds the return address, then RET: PC is the address of the CALL plus 2 and SP is back. -/
def Obligations.CallRetRoundTrip : Prop :=
  ∀ (s t u : State) (r : RegIdx), s.sp ≠ 0 → s.sp ≤ s.cfg.spInit → s.pc.toNat ≤ 253 → exec (.call r) s = .next t →
    u.cfg = t.cfg → u.sp = t.sp → u.memRead u.sp = t.memRead t.sp →
    ∃ v, exec .ret u = .next v ∧ v.pc = s.pc + 2 ∧ v.sp = s.sp

/-- 42_alu.md R116: an ADD or MUL commutes with another register operation that neither reads nor writes its
destination and does not write its source. -/
def Obligations.AluIndependence : Prop :=
  ∀ (s t u : State) (a b c d : RegIdx) (v : Byte) (i j : Instr), i = .add a b ∨ i = .mul a b →
    j = .ldi c v ∨ (d ≠ a ∧ (j = .add c d ∨ j = .mul c d)) → c ≠ a → c ≠ b →
    exec i s = .next t → exec j t = .next u →
    ∃ t', exec j s = .next t' ∧ exec i t' = .next u

/-! ## Memory -/

/-- 20_memory.md R48: a read returns the last byte written there, 0 if none was written since reset; a write replaces
that byte and nothing else. -/
def Obligations.ReadReturnsLastWrite : Prop :=
  (∀ (s : State) (a b : Addr) (v : Byte), (s.memWrite a v).memRead b = if b = a then v else s.memRead b) ∧
  (∀ (s : State) (a : Addr), s.hostReset.memRead a = 0) ∧
  ∀ (s : State) (a : Addr) (v : Byte), ∃ m, s.memWrite a v = { s with mem := m }

/-- Memories in canonical form that read alike at every address are equal data, so two states that no read can tell
apart are equal (the model's form of 10_state.md R20, log entry 10). -/
def Obligations.MemoryCanonical : Prop :=
  ∀ m m' : Memory, Memory.wf m = true → Memory.wf m' = true →
    (∀ a : Addr, Memory.read m a.toNat = Memory.read m' a.toNat) → m = m'

/-! ## Host interface -/

/-- 70_reset_and_hazards.md R180, 10_state.md R34: reset from any state. SP_INIT's role and reset clearing everything at
any time are the spec's own choice (92_eei_decisions.md D3, D20). -/
def Obligations.ResetValues : Prop :=
  ∀ s : State, ∃ t, s.hostReset = t ∧ (∀ a, t.memRead a = 0) ∧ (∀ q, q ≠ 7 → t.reg q = 0) ∧ t.sp = s.cfg.spInit ∧
    t.pc = 0 ∧ t.fl = 0 ∧ t.rs = .running ∧ t.cause.code = 0 ∧ t.info = 0 ∧ t.cyc = 0 ∧ t.out = [] ∧ t.cfg = s.cfg ∧
    State.reset.cfg = { spInit := 0xF4, jumpCompat := false, maxCycles := none }

/-- 70_reset_and_hazards.md R183: Load(image) sets MEM[i] to b[i] and touches nothing else; an image of more than 256
bytes is refused, which is the spec's own choice (92_eei_decisions.md D17). -/
def Obligations.LoadContract : Prop :=
  ∀ (s : State) (image : List Byte),
    (256 < image.length → s.load image = none) ∧
    (image.length ≤ 256 → ∃ t, s.load image = some t ∧
      (∀ a : Addr, t.memRead a = if a.toNat < image.length then image.getD a.toNat 0 else s.memRead a) ∧
      s.sameRegsBut [] t ∧ t.pc = s.pc ∧ t.fl = s.fl ∧ t.out = s.out ∧ s.sameControl t ∧
      (Memory.wf s.mem = true → Memory.wf t.mem = true))

/-- 70_reset_and_hazards.md R181, R183, R184: after Reset, Load and Start the first cycle fetches the first three bytes of
the image, 0 where it has none, and an empty image faults in that cycle with IllegalInstruction(0) when the guard lets
it start. -/
def Obligations.FirstCycleFetchesImage : Prop :=
  ∀ (cfg : Config) (image : List Byte) (t : State), (State.resetWith cfg).load image = some t →
    t.start = t ∧ t.rs = .running ∧ t.fetch = .ok ⟨image.getD 0 0, image.getD 1 0, image.getD 2 0⟩ ∧
    (image = [] → cfg.maxCycles ≠ some 0 → step t = .next (t.faultedWith .illegalInstruction 0))

/-- 70_reset_and_hazards.md R186: what the host may do and when. Reset at any time; Load after Reset, before Start, once;
Start once; the core performs cycles only after Start. The interface is the spec's own choice (92_eei_decisions.md
D17). -/
def Obligations.HostProtocol : Prop :=
  ∀ h : Session,
    h.apply .reset = some { core := State.resetWith h.core.cfg, phase := .afterReset } ∧
    (∀ image h', h.apply (.load image) = some h' ↔
      h.phase = .afterReset ∧ h'.phase = .loaded ∧ h.core.load image = some h'.core) ∧
    (∀ h', h.apply .start = some h' ↔ h.phase ≠ .started ∧ h'.phase = .started ∧ h'.core = h.core) ∧
    ∀ h', h.apply .cycle = some h' ↔ h.phase = .started ∧ h'.phase = .started ∧ step h.core = .next h'.core

/-- 60_exceptions.md R150: the 4-bit values of CAUSE. The numbers are the spec's own choice (92_eei_decisions.md D10). -/
def Obligations.CauseCodes : Prop :=
  [Cause.noOutcome, .halt, .cycleLimit, .illegalInstruction, .aluUnsupported, .memoryBounds, .registerBounds,
    .stackUnderflow, .stackOverflow].map Cause.code = [0, 1, 2, 3, 4, 5, 6, 7, 8]

/-- 41_control_load_output.md R105: the host's text of a value is its decimal digits, most significant first, without
leading zeros, and a newline. Where the core ends and the host begins is the spec's own choice (92_eei_decisions.md
D16). -/
def Obligations.RenderedDecimal : Prop :=
  ∀ v : Byte, ∃ ds : List Nat, renderValue v = ds.map (fun d => Char.ofNat ('0'.toNat + d)) ++ ['\n'] ∧
    (∀ d ∈ ds, d ≤ 9) ∧ ds.foldl (fun n d => 10 * n + d) 0 = v.toNat ∧ (ds.head? = some 0 → ds = [0]) ∧ ds ≠ []
end

