-- ==== Sys2Proof/Laws/Decode.lean ====
section
/-! SUPPORT. Facts about the opcode table, the operand check and the encoder. -/

namespace Sys2Proof

@[simp] theorem regByte_toNat (r : RegIdx) : (regByte r).toNat = r.val := by
  have := r.isLt
  simp only [regByte, BitVec.toNat_ofNat]
  omega

@[simp] theorem regByteOk_regByte (r : RegIdx) : regByteOk (regByte r) = true := by
  simp [regByteOk]

/-- The operand check of a register number's own byte goes through. -/
@[simp] theorem withReg_regByte (r : RegIdx) (k : RegIdx → Except DecodeError Instr) : withReg (regByte r) k = k r := by
  simp [withReg]

/-- The operand check of a byte above 7 reports the byte. -/
theorem withReg_above {b : Byte} (h : 7 < b.toNat) (k : RegIdx → Except DecodeError Instr) :
    withReg b k = .error (.registerBounds b) := by
  unfold withReg
  rw [dif_neg (by omega)]

/-- A byte that passes the operand check is the byte of a register number. -/
theorem exists_regByte {b : Byte} (h : b.toNat < 8) : ∃ r : RegIdx, b = regByte r := by
  refine ⟨⟨b.toNat, h⟩, ?_⟩
  apply BitVec.eq_of_toNat_eq
  simp

/-- An operand check that goes through found a register number. -/
theorem withReg_ok {b : Byte} {k : RegIdx → Except DecodeError Instr} {i : Instr} (h : withReg b k = .ok i) :
    ∃ r, b = regByte r ∧ k r = .ok i := by
  by_cases hb : b.toNat < 8
  · obtain ⟨r, rfl⟩ := exists_regByte hb
    exact ⟨r, rfl, by simpa using h⟩
  · rw [withReg_above (by omega)] at h
    cases h

/-- Every term of `Instr` is well formed: the operands are typed as register numbers. -/
theorem Instr.wellFormed_always (i : Instr) : i.wellFormed = true := by
  cases i <;> simp [Instr.wellFormed, Instr.format, Instr.operandBytes, operandsWellFormed]

/-- The thirteen opcode values are pairwise distinct (30_encoding.md R63). -/
theorem Op.opcode_injective {a b : Op} (h : a.opcode = b.opcode) : a = b := by
  cases a <;> cases b <;> first | rfl | exact absurd h (by decide)

/-- The table lookup finds an operation exactly by its opcode value. -/
@[simp] theorem Op.ofByte?_opcode (op : Op) : Op.ofByte? op.opcode = some op := by
  cases op <;> rfl

theorem Op.opcode_of_ofByte? {ir : Byte} {op : Op} (h : Op.ofByte? ir = some op) : op.opcode = ir := by
  simpa using List.find?_some h

/-- A byte is found in the table or equals none of the thirteen opcode values. -/
theorem Op.ofByte?_none {ir : Byte} : Op.ofByte? ir = none ↔ ∀ op : Op, op.opcode ≠ ir := by
  constructor
  · intro h op
    have hm : op ∈ Op.all := by cases op <;> decide
    simpa using List.find?_eq_none.mp h op hm
  · intro h
    exact List.find?_eq_none.mpr fun op _ => by simpa using h op

/-- Decoding a defined opcode byte goes on to its operands. -/
theorem decode_opcode (op : Op) (opa opb : Byte) : decode ⟨op.opcode, opa, opb⟩ = op.withOperands opa opb := by
  simp [decode]

/-- Decoding any other opcode byte reports it. -/
theorem decode_undefined {l : Latches} (h : Op.ofByte? l.ir = none) : decode l = .error (.illegalInstruction l.ir) := by
  simp [decode, h]

/-- Operands assembled for an operation give an instruction of that operation. -/
theorem Op.withOperands_op {op : Op} {opa opb : Byte} {i : Instr} (h : op.withOperands opa opb = .ok i) : i.op = op := by
  cases op <;> simp only [Op.withOperands] at h
  case hlt => cases h; rfl
  case ret => cases h; rfl
  case mul | add | cmp =>
    obtain ⟨r, hr, h1⟩ := withReg_ok h
    obtain ⟨q, hq, h2⟩ := withReg_ok h1
    clear h h1
    cases h2
    rfl
  all_goals
    obtain ⟨r, hr, h1⟩ := withReg_ok h
    clear h
    cases h1
    rfl

/-- An instruction that was decoded has the opcode byte it was decoded from. -/
theorem decode_opcode_byte {l : Latches} {i : Instr} (h : decode l = .ok i) : i.op.opcode = l.ir := by
  unfold decode at h
  split at h
  · cases h
  · rename_i op ho
    rw [Op.withOperands_op h]
    exact Op.opcode_of_ofByte? ho

end Sys2Proof
end

