-- ==== Sys2Proof/Laws/State.lean ====
section
/-! SUPPORT. What each field of State is after each update: one lemma per field per update, and what a register or a byte reads as. -/

namespace Sys2Proof.Machine

variable (s : State)

/-! ## memWrite -/

@[simp] theorem State.memWrite_cfg (a : Addr) (v : Byte) : (s.memWrite a v).cfg = s.cfg := rfl
@[simp] theorem State.memWrite_mem (a : Addr) (v : Byte) : (s.memWrite a v).mem = Memory.write s.mem a.toNat v := rfl
@[simp] theorem State.memWrite_regs (a : Addr) (v : Byte) : (s.memWrite a v).regs = s.regs := rfl
@[simp] theorem State.memWrite_pc (a : Addr) (v : Byte) : (s.memWrite a v).pc = s.pc := rfl
@[simp] theorem State.memWrite_fl (a : Addr) (v : Byte) : (s.memWrite a v).fl = s.fl := rfl
@[simp] theorem State.memWrite_rs (a : Addr) (v : Byte) : (s.memWrite a v).rs = s.rs := rfl
@[simp] theorem State.memWrite_cause (a : Addr) (v : Byte) : (s.memWrite a v).cause = s.cause := rfl
@[simp] theorem State.memWrite_info (a : Addr) (v : Byte) : (s.memWrite a v).info = s.info := rfl
@[simp] theorem State.memWrite_cyc (a : Addr) (v : Byte) : (s.memWrite a v).cyc = s.cyc := rfl
@[simp] theorem State.memWrite_out (a : Addr) (v : Byte) : (s.memWrite a v).out = s.out := rfl

/-! ## setReg -/

@[simp] theorem State.setReg_cfg (r : RegIdx) (v : Byte) : (s.setReg r v).cfg = s.cfg := rfl
@[simp] theorem State.setReg_mem (r : RegIdx) (v : Byte) : (s.setReg r v).mem = s.mem := rfl
@[simp] theorem State.setReg_regs (r : RegIdx) (v : Byte) : (s.setReg r v).regs = s.regs.set r v := rfl
@[simp] theorem State.setReg_pc (r : RegIdx) (v : Byte) : (s.setReg r v).pc = s.pc := rfl
@[simp] theorem State.setReg_fl (r : RegIdx) (v : Byte) : (s.setReg r v).fl = s.fl := rfl
@[simp] theorem State.setReg_rs (r : RegIdx) (v : Byte) : (s.setReg r v).rs = s.rs := rfl
@[simp] theorem State.setReg_cause (r : RegIdx) (v : Byte) : (s.setReg r v).cause = s.cause := rfl
@[simp] theorem State.setReg_info (r : RegIdx) (v : Byte) : (s.setReg r v).info = s.info := rfl
@[simp] theorem State.setReg_cyc (r : RegIdx) (v : Byte) : (s.setReg r v).cyc = s.cyc := rfl
@[simp] theorem State.setReg_out (r : RegIdx) (v : Byte) : (s.setReg r v).out = s.out := rfl

/-! ## setPc -/

@[simp] theorem State.setPc_cfg (t : Word9) : (s.setPc t).cfg = s.cfg := rfl
@[simp] theorem State.setPc_mem (t : Word9) : (s.setPc t).mem = s.mem := rfl
@[simp] theorem State.setPc_regs (t : Word9) : (s.setPc t).regs = s.regs := rfl
@[simp] theorem State.setPc_pc (t : Word9) : (s.setPc t).pc = t := rfl
@[simp] theorem State.setPc_fl (t : Word9) : (s.setPc t).fl = s.fl := rfl
@[simp] theorem State.setPc_rs (t : Word9) : (s.setPc t).rs = s.rs := rfl
@[simp] theorem State.setPc_cause (t : Word9) : (s.setPc t).cause = s.cause := rfl
@[simp] theorem State.setPc_info (t : Word9) : (s.setPc t).info = s.info := rfl
@[simp] theorem State.setPc_cyc (t : Word9) : (s.setPc t).cyc = s.cyc := rfl
@[simp] theorem State.setPc_out (t : Word9) : (s.setPc t).out = s.out := rfl

/-! ## advancePast -/

@[simp] theorem State.advancePast_cfg (f : Format) : (s.advancePast f).cfg = s.cfg := rfl
@[simp] theorem State.advancePast_mem (f : Format) : (s.advancePast f).mem = s.mem := rfl
@[simp] theorem State.advancePast_regs (f : Format) : (s.advancePast f).regs = s.regs := rfl
theorem State.advancePast_pc (f : Format) : (s.advancePast f).pc = s.pc + 1 + BitVec.ofNat 9 f.operandCount := rfl
@[simp] theorem State.advancePast_fl (f : Format) : (s.advancePast f).fl = s.fl := rfl
@[simp] theorem State.advancePast_rs (f : Format) : (s.advancePast f).rs = s.rs := rfl
@[simp] theorem State.advancePast_cause (f : Format) : (s.advancePast f).cause = s.cause := rfl
@[simp] theorem State.advancePast_info (f : Format) : (s.advancePast f).info = s.info := rfl
@[simp] theorem State.advancePast_cyc (f : Format) : (s.advancePast f).cyc = s.cyc := rfl
@[simp] theorem State.advancePast_out (f : Format) : (s.advancePast f).out = s.out := rfl

/-! ## setFl -/

@[simp] theorem State.setFl_cfg (v : Byte) : (s.setFl v).cfg = s.cfg := rfl
@[simp] theorem State.setFl_mem (v : Byte) : (s.setFl v).mem = s.mem := rfl
@[simp] theorem State.setFl_regs (v : Byte) : (s.setFl v).regs = s.regs := rfl
@[simp] theorem State.setFl_pc (v : Byte) : (s.setFl v).pc = s.pc := rfl
@[simp] theorem State.setFl_fl (v : Byte) : (s.setFl v).fl = v := rfl
@[simp] theorem State.setFl_rs (v : Byte) : (s.setFl v).rs = s.rs := rfl
@[simp] theorem State.setFl_cause (v : Byte) : (s.setFl v).cause = s.cause := rfl
@[simp] theorem State.setFl_info (v : Byte) : (s.setFl v).info = s.info := rfl
@[simp] theorem State.setFl_cyc (v : Byte) : (s.setFl v).cyc = s.cyc := rfl
@[simp] theorem State.setFl_out (v : Byte) : (s.setFl v).out = s.out := rfl

/-! ## emit -/

@[simp] theorem State.emit_cfg (v : Byte) : (s.emit v).cfg = s.cfg := rfl
@[simp] theorem State.emit_mem (v : Byte) : (s.emit v).mem = s.mem := rfl
@[simp] theorem State.emit_regs (v : Byte) : (s.emit v).regs = s.regs := rfl
@[simp] theorem State.emit_pc (v : Byte) : (s.emit v).pc = s.pc := rfl
@[simp] theorem State.emit_fl (v : Byte) : (s.emit v).fl = s.fl := rfl
@[simp] theorem State.emit_rs (v : Byte) : (s.emit v).rs = s.rs := rfl
@[simp] theorem State.emit_cause (v : Byte) : (s.emit v).cause = s.cause := rfl
@[simp] theorem State.emit_info (v : Byte) : (s.emit v).info = s.info := rfl
@[simp] theorem State.emit_cyc (v : Byte) : (s.emit v).cyc = s.cyc := rfl
@[simp] theorem State.emit_out (v : Byte) : (s.emit v).out = s.out ++ [v] := rfl

/-! ## halt -/

@[simp] theorem State.halt_cfg : (s.halt).cfg = s.cfg := rfl
@[simp] theorem State.halt_mem : (s.halt).mem = s.mem := rfl
@[simp] theorem State.halt_regs : (s.halt).regs = s.regs := rfl
@[simp] theorem State.halt_pc : (s.halt).pc = s.pc := rfl
@[simp] theorem State.halt_fl : (s.halt).fl = s.fl := rfl
@[simp] theorem State.halt_rs : (s.halt).rs = .halted := rfl
@[simp] theorem State.halt_cause : (s.halt).cause = .halt := rfl
@[simp] theorem State.halt_info : (s.halt).info = s.info := rfl
@[simp] theorem State.halt_cyc : (s.halt).cyc = s.cyc := rfl
@[simp] theorem State.halt_out : (s.halt).out = s.out := rfl

/-! ## countCycle -/

@[simp] theorem State.countCycle_cfg : (s.countCycle).cfg = s.cfg := rfl
@[simp] theorem State.countCycle_mem : (s.countCycle).mem = s.mem := rfl
@[simp] theorem State.countCycle_regs : (s.countCycle).regs = s.regs := rfl
@[simp] theorem State.countCycle_pc : (s.countCycle).pc = s.pc := rfl
@[simp] theorem State.countCycle_fl : (s.countCycle).fl = s.fl := rfl
@[simp] theorem State.countCycle_rs : (s.countCycle).rs = s.rs := rfl
@[simp] theorem State.countCycle_cause : (s.countCycle).cause = s.cause := rfl
@[simp] theorem State.countCycle_info : (s.countCycle).info = s.info := rfl
@[simp] theorem State.countCycle_cyc : (s.countCycle).cyc = if s.cfg.maxCycles.isSome then s.cyc + 1 else s.cyc := rfl
@[simp] theorem State.countCycle_out : (s.countCycle).out = s.out := rfl

/-! ## takeFault -/

@[simp] theorem State.takeFault_cfg (t : Trap) : (s.takeFault t).cfg = s.cfg := rfl
@[simp] theorem State.takeFault_mem (t : Trap) : (s.takeFault t).mem = s.mem := rfl
@[simp] theorem State.takeFault_regs (t : Trap) : (s.takeFault t).regs = s.regs := rfl
@[simp] theorem State.takeFault_pc (t : Trap) : (s.takeFault t).pc = s.pc := rfl
@[simp] theorem State.takeFault_fl (t : Trap) : (s.takeFault t).fl = s.fl := rfl
@[simp] theorem State.takeFault_rs (t : Trap) : (s.takeFault t).rs = .faulted := rfl
@[simp] theorem State.takeFault_cause (t : Trap) : (s.takeFault t).cause = t.cause := rfl
@[simp] theorem State.takeFault_info (t : Trap) : (s.takeFault t).info = t.info := rfl
@[simp] theorem State.takeFault_cyc (t : Trap) : (s.takeFault t).cyc = s.cyc := rfl
@[simp] theorem State.takeFault_out (t : Trap) : (s.takeFault t).out = s.out := rfl

/-! ## Registers and bytes read after an update -/

@[simp] theorem State.setReg_reg (r : RegIdx) (v : Byte) (q : RegIdx) :
    (s.setReg r v).reg q = if q = r then v else s.reg q := by
  simp [State.setReg, State.reg, Vector.getElem_set, Fin.ext_iff, eq_comm]

@[simp] theorem State.memWrite_reg (a : Addr) (v : Byte) (q : RegIdx) : (s.memWrite a v).reg q = s.reg q := rfl
@[simp] theorem State.memWrite_sp (a : Addr) (v : Byte) : (s.memWrite a v).sp = s.sp := rfl
@[simp] theorem State.setReg_memRead (r : RegIdx) (v : Byte) (c : Addr) : (s.setReg r v).memRead c = s.memRead c := rfl
@[simp] theorem State.setPc_reg (t : Word9) (q : RegIdx) : (s.setPc t).reg q = s.reg q := rfl
@[simp] theorem State.setPc_sp (t : Word9) : (s.setPc t).sp = s.sp := rfl
@[simp] theorem State.setPc_memRead (t : Word9) (c : Addr) : (s.setPc t).memRead c = s.memRead c := rfl
@[simp] theorem State.advancePast_reg (f : Format) (q : RegIdx) : (s.advancePast f).reg q = s.reg q := rfl
@[simp] theorem State.advancePast_sp (f : Format) : (s.advancePast f).sp = s.sp := rfl
@[simp] theorem State.advancePast_memRead (f : Format) (c : Addr) : (s.advancePast f).memRead c = s.memRead c := rfl
@[simp] theorem State.setFl_reg (v : Byte) (q : RegIdx) : (s.setFl v).reg q = s.reg q := rfl
@[simp] theorem State.setFl_sp (v : Byte) : (s.setFl v).sp = s.sp := rfl
@[simp] theorem State.setFl_memRead (v : Byte) (c : Addr) : (s.setFl v).memRead c = s.memRead c := rfl
@[simp] theorem State.emit_reg (v : Byte) (q : RegIdx) : (s.emit v).reg q = s.reg q := rfl
@[simp] theorem State.emit_sp (v : Byte) : (s.emit v).sp = s.sp := rfl
@[simp] theorem State.emit_memRead (v : Byte) (c : Addr) : (s.emit v).memRead c = s.memRead c := rfl
@[simp] theorem State.halt_reg (q : RegIdx) : (s.halt).reg q = s.reg q := rfl
@[simp] theorem State.halt_sp : (s.halt).sp = s.sp := rfl
@[simp] theorem State.halt_memRead (c : Addr) : (s.halt).memRead c = s.memRead c := rfl
@[simp] theorem State.countCycle_reg (q : RegIdx) : (s.countCycle).reg q = s.reg q := rfl
@[simp] theorem State.countCycle_sp : (s.countCycle).sp = s.sp := rfl
@[simp] theorem State.countCycle_memRead (c : Addr) : (s.countCycle).memRead c = s.memRead c := rfl
@[simp] theorem State.takeFault_reg (t : Trap) (q : RegIdx) : (s.takeFault t).reg q = s.reg q := rfl
@[simp] theorem State.takeFault_sp (t : Trap) : (s.takeFault t).sp = s.sp := rfl
@[simp] theorem State.takeFault_memRead (t : Trap) (c : Addr) : (s.takeFault t).memRead c = s.memRead c := rfl

@[simp] theorem State.setReg_sp (r : RegIdx) (v : Byte) : (s.setReg r v).sp = if r = 7 then v else s.sp := by
  simp [State.sp, spIndex, eq_comm]

/-- SP is R7 (10_state.md R24). -/
theorem State.sp_eq : s.sp = s.reg 7 := rfl

/-- A register file is its eight registers. -/
theorem State.regs_ext {s t : State} (h : ∀ q, t.reg q = s.reg q) : t.regs = s.regs := by
  apply Vector.ext
  intro i hi
  exact h ⟨i, hi⟩

/-- Writes to two registers commute. -/
theorem State.setReg_comm {a c : RegIdx} (h : c ≠ a) (v w : Byte) :
    (s.setReg a v).setReg c w = (s.setReg c w).setReg a v := by
  have hv : c.val ≠ a.val := fun e => h (Fin.ext e)
  have hr : ((s.setReg a v).setReg c w).regs = ((s.setReg c w).setReg a v).regs := by
    apply Vector.ext
    intro i hi
    simp only [State.setReg_regs, Vector.getElem_set]
    split <;> split <;> first | rfl | omega
  show { s with regs := _ } = { s with regs := _ }
  exact congrArg (fun regs => { s with regs := regs }) hr

@[simp] theorem State.orFault_ok (t : State) : s.orFault (.ok t) = t := rfl
@[simp] theorem State.orFault_error (e : Trap) : s.orFault (.error e) = s.takeFault e := rfl
@[simp] theorem State.idle_eq : s.idle = s := rfl

/-! ## The state after reset -/

variable (cfg : Config)

@[simp] theorem State.resetWith_cfg : (State.resetWith cfg).cfg = cfg := rfl
@[simp] theorem State.resetWith_mem : (State.resetWith cfg).mem = [] := rfl
@[simp] theorem State.resetWith_pc : (State.resetWith cfg).pc = 0 := rfl
@[simp] theorem State.resetWith_fl : (State.resetWith cfg).fl = 0 := rfl
@[simp] theorem State.resetWith_rs : (State.resetWith cfg).rs = .running := rfl
@[simp] theorem State.resetWith_cause : (State.resetWith cfg).cause = .noOutcome := rfl
@[simp] theorem State.resetWith_info : (State.resetWith cfg).info = 0 := rfl
@[simp] theorem State.resetWith_cyc : (State.resetWith cfg).cyc = 0 := rfl
@[simp] theorem State.resetWith_out : (State.resetWith cfg).out = [] := rfl
@[simp] theorem State.resetWith_sp : (State.resetWith cfg).sp = cfg.spInit := rfl

theorem State.resetWith_reg (q : RegIdx) : (State.resetWith cfg).reg q = if q = 7 then cfg.spInit else 0 := by
  revert q
  simp [Fin.forall_fin_succ, State.reg, State.resetWith]

end Sys2Proof.Machine
end

