-- ==== Sys2Proof/Laws/Memory.lean ====
section
/-! SUPPORT. The laws of memory: read after write, canonical form kept, equal reads mean equal memories, and what a load leaves. -/

namespace Sys2Proof.Machine

theorem Memory.erase_cons (c : Host.Cell) (m : Memory) (a : Nat) :
    Memory.erase (c :: m) a = if c.1 = a then m.erase a else c :: m.erase a := by
  by_cases h : c.1 = a <;> simp [Memory.erase, h]

theorem Memory.read_erase (m : Memory) (a b : Nat) :
    Memory.read (m.erase a) b = if b = a then Memory.unlisted else Memory.read m b := by
  induction m with
  | nil => simp [Memory.erase, Memory.read]
  | cons c m ih =>
    rw [Memory.erase_cons]
    by_cases hca : c.1 = a
    · by_cases hb : b = a
      · rw [hb] at ih
        simp [hca, ih, hb]
      · simp [Memory.read, hca, ih, hb, Ne.symm hb]
    · by_cases hb : b = a
      · rw [hb] at ih
        simp [Memory.read, hca, ih, hb]
      · simp [Memory.read, hca, ih, hb]

theorem Memory.read_insert (m : Memory) (a b : Nat) (v : Byte) (h : b = a → Memory.read m a = Memory.unlisted)
    (hm : ∀ c ∈ m, c.1 ≠ a) :
    Memory.read (m.insert a v) b = if b = a then v else Memory.read m b := by
  induction m with
  | nil => simp [Memory.insert, Memory.read, eq_comm]
  | cons c m ih =>
    have hc : c.1 ≠ a := hm c (by simp)
    have hm' : ∀ d ∈ m, d.1 ≠ a := fun d hd => hm d (by simp [hd])
    have h' : b = a → Memory.read m a = Memory.unlisted := by
      intro hb
      have := h hb
      simpa [Memory.read, hc] using this
    have ih := ih h' hm'
    by_cases hlt : a < c.1
    · simp [Memory.insert, Memory.read, hlt, eq_comm]
    · by_cases hb : b = a
      · subst hb
        simpa [Memory.insert, Memory.read, hlt, hc] using ih
      · simp only [hb, if_false] at ih ⊢
        simp [Memory.insert, Memory.read, hlt, ih]

theorem Memory.erase_ne (m : Memory) (a : Nat) : ∀ c ∈ m.erase a, c.1 ≠ a := by
  intro c hc
  simpa using (List.mem_filter.mp hc).2

/-- A read returns the last byte written there, and a write leaves every other address alone (20_memory.md R48). -/
theorem Memory.read_write (m : Memory) (a b : Nat) (v : Byte) :
    Memory.read (m.write a v) b = if b = a then v else Memory.read m b := by
  unfold Memory.write
  split
  · rename_i hv
    rw [Memory.read_erase, hv]
  · rw [Memory.read_insert]
    · split
      · rfl
      · rename_i hb
        simp [Memory.read_erase, hb]
    · intro _
      simp [Memory.read_erase]
    · exact Memory.erase_ne m a

@[simp] theorem State.memWrite_memRead (s : State) (a c : Addr) (v : Byte) :
    (s.memWrite a v).memRead c = if c = a then v else s.memRead c := by
  simp [State.memWrite, State.memRead, Memory.read_write, BitVec.toNat_inj]

theorem Memory.wfFrom_mono {m : Memory} {lo lo' : Nat} (h : lo ≤ lo') (hm : Memory.wfFrom lo' m = true) :
    Memory.wfFrom lo m = true := by
  cases m with
  | nil => rfl
  | cons c m =>
    simp only [Memory.wfFrom, Bool.and_eq_true, decide_eq_true_eq] at hm ⊢
    exact ⟨⟨⟨by omega, hm.1.1.2⟩, hm.1.2⟩, hm.2⟩

theorem Memory.wfFrom_erase {m : Memory} {lo : Nat} (a : Nat) (hm : Memory.wfFrom lo m = true) :
    Memory.wfFrom lo (m.erase a) = true := by
  induction m generalizing lo with
  | nil => rfl
  | cons c m ih =>
    simp only [Memory.wfFrom, Bool.and_eq_true, decide_eq_true_eq] at hm
    have ih' := ih hm.2
    by_cases hca : c.1 = a
    · rw [Memory.erase_cons, if_pos hca]
      exact Memory.wfFrom_mono (by omega) ih'
    · rw [Memory.erase_cons, if_neg hca]
      simp only [Memory.wfFrom, Bool.and_eq_true, decide_eq_true_eq]
      exact ⟨hm.1, ih'⟩

theorem Memory.wfFrom_insert {m : Memory} {lo a : Nat} {v : Byte} (hlo : lo ≤ a) (ha : a < 256)
    (hv : v ≠ Memory.unlisted) (hne : ∀ c ∈ m, c.1 ≠ a) (hm : Memory.wfFrom lo m = true) :
    Memory.wfFrom lo (m.insert a v) = true := by
  induction m generalizing lo with
  | nil => simp [Memory.insert, Memory.wfFrom, hlo, ha, hv]
  | cons c m ih =>
    have hc : c.1 ≠ a := hne c (by simp)
    have hne' : ∀ d ∈ m, d.1 ≠ a := fun d hd => hne d (by simp [hd])
    simp only [Memory.wfFrom, Bool.and_eq_true, decide_eq_true_eq] at hm
    by_cases hlt : a < c.1
    · simp only [Memory.insert, hlt, if_true, Memory.wfFrom, Bool.and_eq_true, decide_eq_true_eq]
      exact ⟨⟨⟨hlo, ha⟩, hv⟩, ⟨⟨by omega, hm.1.1.2⟩, hm.1.2⟩, hm.2⟩
    · simp only [Memory.insert, hlt, if_false, Memory.wfFrom, Bool.and_eq_true, decide_eq_true_eq]
      exact ⟨hm.1, ih (by omega) hne' hm.2⟩

/-- A write keeps the canonical form. -/
theorem Memory.wf_write {m : Memory} {a : Nat} {v : Byte} (ha : a < 256) (hm : m.wf = true) :
    (m.write a v).wf = true := by
  unfold Memory.write
  split
  · exact Memory.wfFrom_erase a hm
  · rename_i hv
    exact Memory.wfFrom_insert (Nat.zero_le a) ha hv (Memory.erase_ne m a) (Memory.wfFrom_erase a hm)

theorem State.memWrite_wf {s : State} (a : Addr) (v : Byte) (h : Memory.wf s.mem = true) :
    Memory.wf (s.memWrite a v).mem = true :=
  Memory.wf_write a.isLt h

/-- A canonical memory reads as unlisted below its first address. -/
theorem Memory.read_below {m : Memory} {lo a : Nat} (hm : Memory.wfFrom lo m = true) (ha : a < lo) :
    Memory.read m a = Memory.unlisted := by
  induction m generalizing lo with
  | nil => rfl
  | cons c m ih =>
    simp only [Memory.wfFrom, Bool.and_eq_true, decide_eq_true_eq] at hm
    have hc : c.1 ≠ a := by omega
    simp only [Memory.read, hc, if_false]
    exact ih hm.2 (by omega)

theorem Memory.read_above {m : Memory} {lo a : Nat} (hm : Memory.wfFrom lo m = true) (ha : 256 ≤ a) :
    Memory.read m a = Memory.unlisted := by
  induction m generalizing lo with
  | nil => rfl
  | cons c m ih =>
    simp only [Memory.wfFrom, Bool.and_eq_true, decide_eq_true_eq] at hm
    have hc : c.1 ≠ a := by omega
    simp only [Memory.read, hc, if_false]
    exact ih hm.2

/-- What loading a list of bytes leaves at each address. -/
theorem Memory.read_writeAll (bs : List Byte) (m : Memory) (a b : Nat) :
    Memory.read (m.writeAll a bs) b = if a ≤ b ∧ b < a + bs.length then bs.getD (b - a) 0 else Memory.read m b := by
  induction bs generalizing m a with
  | nil =>
    have : ¬(a ≤ b ∧ b < a + ([] : List Byte).length) := by simp
    simp only [Memory.writeAll, this, if_false]
  | cons v bs ih =>
    simp only [Memory.writeAll, ih, Memory.read_write, List.length_cons]
    by_cases hab : b = a
    · subst hab
      simp
    · by_cases h : a + 1 ≤ b ∧ b < a + 1 + bs.length
      · have h2 : a ≤ b ∧ b < a + (bs.length + 1) := by omega
        have h3 : b - a = (b - (a + 1)) + 1 := by omega
        simp only [h, h2, and_self, if_true, h3, List.getD_cons_succ]
      · have h2 : ¬(a ≤ b ∧ b < a + (bs.length + 1)) := by omega
        simp only [h, h2, hab, if_false]

/-- A load inside the address space keeps the canonical form. -/
theorem Memory.wf_writeAll (bs : List Byte) (m : Memory) (a : Nat) (h : a + bs.length ≤ 256) (hm : m.wf = true) :
    (m.writeAll a bs).wf = true := by
  induction bs generalizing m a with
  | nil => exact hm
  | cons v bs ih =>
    simp only [List.length_cons] at h
    exact ih _ _ (by omega) (Memory.wf_write (by omega) hm)

end Sys2Proof.Machine
end

