-- ==== Sys2Proof/Laws/Ops.lean ====
section
/-! SUPPORT. What each shared operation can do, said once: the stack helpers, the stack effects, the ALU, the jumps, taking a fault. -/

namespace Sys2Proof.Machine

variable (s : State)

/-! ## The stack helpers (43_stack_subroutine.md R121) -/

theorem State.spDec_zero {s : State} (h : s.sp = 0) : s.spDec = .error .stackUnderflow := by
  simp [State.spDec, h]

theorem State.spDec_pos {s : State} (h : s.sp ≠ 0) : s.spDec = .ok (s.setReg 7 (s.sp - 1)) := by
  simp only [State.spDec, if_neg h, spIndex]

theorem State.spInc_limit {s : State} (h : s.cfg.spInit ≤ s.sp) : s.spInc = .error (.stackOverflow s.sp) := by
  simp [State.spInc, h]

theorem State.spInc_below {s : State} (h : s.sp < s.cfg.spInit) : s.spInc = .ok (s.setReg 7 (s.sp + 1)) := by
  have h' : ¬s.cfg.spInit ≤ s.sp := by simpa using h
  simp [State.spInc, h', spIndex]

/-! ## The stack effects -/

theorem State.push_zero {s : State} (r : RegIdx) (h : s.sp = 0) : s.push r = .error .stackUnderflow := by
  simp [State.push, State.spDec_zero h]

/-- PUSH: the register is read after the decrement (43_stack_subroutine.md R120, R122). -/
theorem State.push_pos {s : State} (r : RegIdx) (h : s.sp ≠ 0) :
    s.push r = .ok (((s.setReg 7 (s.sp - 1)).memWrite (s.sp - 1)
      (if r = 7 then s.sp - 1 else s.reg r)).advancePast .r) := by
  simp [State.push, State.spDec_pos h, State.storeTop, State.regOperand]

theorem State.callTo_zero {s : State} (r : RegIdx) (h : s.sp = 0) : s.callTo r = .error .stackUnderflow := by
  simp [State.callTo, State.spDec_zero h]

/-- CALL: the target is read after the decrement (43_stack_subroutine.md R120, R124). -/
theorem State.callTo_pos {s : State} (r : RegIdx) (h : s.sp ≠ 0) :
    s.callTo r = .ok (((s.setReg 7 (s.sp - 1)).memWrite (s.sp - 1) s.returnAddress).setPc
      (zext9 (if r = 7 then s.sp - 1 else s.reg r))) := by
  simp [State.callTo, State.spDec_pos h, State.storeTop, State.returnAddress, State.targetOperand]

theorem State.pop_limit {s : State} (r : RegIdx) (h : s.cfg.spInit ≤ s.sp) :
    s.pop r = .error (.stackOverflow s.sp) := by
  simp [State.pop, h]

/-- POP into a register other than R7 (43_stack_subroutine.md R123). -/
theorem State.pop_below {s : State} {r : RegIdx} (hr : r ≠ 7) (h : s.sp < s.cfg.spInit) :
    s.pop r = .ok (((s.setReg r (s.memRead s.sp)).setReg 7 (s.sp + 1)).advancePast .r) := by
  have h' : ¬s.cfg.spInit ≤ s.sp := by simpa using h
  have hb : (s.setReg r s.stackTop).sp < (s.setReg r s.stackTop).cfg.spInit := by simpa [hr] using h
  simp only [State.pop, h', if_false, State.spInc_below hb]
  simp [State.stackTop, hr]

/-- POP R7 whose loaded byte is at or above the limit (43_stack_subroutine.md R123). -/
theorem State.pop_sp_limit {s : State} (h : s.sp < s.cfg.spInit) (hv : s.cfg.spInit ≤ s.memRead s.sp) :
    s.pop 7 = .error (.stackOverflow (s.memRead s.sp)) := by
  have h' : ¬s.cfg.spInit ≤ s.sp := by simpa using h
  have hb : (s.setReg 7 s.stackTop).cfg.spInit ≤ (s.setReg 7 s.stackTop).sp := by simpa [State.stackTop] using hv
  simp only [State.pop, h', if_false, State.spInc_limit hb]
  simp [State.stackTop]

/-- POP R7: SP ends at the loaded byte plus one (43_stack_subroutine.md R123). -/
theorem State.pop_sp_below {s : State} (h : s.sp < s.cfg.spInit) (hv : s.memRead s.sp < s.cfg.spInit) :
    s.pop 7 = .ok (((s.setReg 7 (s.memRead s.sp)).setReg 7 (s.memRead s.sp + 1)).advancePast .r) := by
  have h' : ¬s.cfg.spInit ≤ s.sp := by simpa using h
  have hb : (s.setReg 7 s.stackTop).sp < (s.setReg 7 s.stackTop).cfg.spInit := by simpa [State.stackTop] using hv
  simp only [State.pop, h', if_false, State.spInc_below hb]
  simp [State.stackTop]

theorem State.returnFrom_limit {s : State} (h : s.cfg.spInit ≤ s.sp) :
    s.returnFrom = .error (.stackOverflow s.sp) := by
  simp [State.returnFrom, State.spInc_limit h]

theorem State.returnFrom_below {s : State} (h : s.sp < s.cfg.spInit) :
    s.returnFrom = .ok ((s.setReg 7 (s.sp + 1)).setPc (zext9 (s.memRead s.sp))) := by
  simp [State.returnFrom, State.spInc_below h, State.stackTop]

/-! ## The ALU and the flags -/

theorem State.aluStep_add (a b : RegIdx) :
    s.aluStep .add a b =
      (s.setReg a (BitVec.ofNat 8 ((s.reg a).toNat + (s.reg b).toNat))).advancePast .rr := rfl

theorem State.aluStep_mul (a b : RegIdx) :
    s.aluStep .mul a b =
      (s.setReg a (BitVec.ofNat 8 ((s.reg a).toNat * (s.reg b).toNat))).advancePast .rr := rfl

theorem State.aluStep_cmp (a b : RegIdx) :
    s.aluStep .cmp a b = (s.setFl (compareFlags (s.reg a) (s.reg b))).advancePast .rr := rfl

/-- CMP leaves 1, 2 or 4, by which of the three relations holds (42_alu.md R113). -/
theorem compareFlags_cases (a b : Byte) :
    (a.toNat = b.toNat ∧ compareFlags a b = 1) ∨ (b.toNat < a.toNat ∧ compareFlags a b = 2) ∨
      (a.toNat < b.toNat ∧ compareFlags a b = 4) := by
  unfold compareFlags
  split
  · exact .inl ⟨‹_›, rfl⟩
  · split
    · exact .inr (.inl ⟨‹_›, rfl⟩)
    · exact .inr (.inr ⟨by omega, rfl⟩)

/-! ## PC -/

/-- An 8-bit target is an address (10_state.md R25). -/
theorem zext9_lt (v : Byte) : (zext9 v).toNat < 256 := by
  have := v.isLt
  simp only [zext9, BitVec.toNat_setWidth]
  omega

@[simp] theorem advancePast_r_pc : (s.advancePast .r).pc = s.pc + 2 := by
  simp [State.advancePast, State.setPc, Format.operandCount, BitVec.add_assoc]

@[simp] theorem advancePast_ri_pc : (s.advancePast .ri).pc = s.pc + 3 := by
  simp [State.advancePast, State.setPc, Format.operandCount, BitVec.add_assoc]

@[simp] theorem advancePast_rr_pc : (s.advancePast .rr).pc = s.pc + 3 := by
  simp [State.advancePast, State.setPc, Format.operandCount, BitVec.add_assoc]

/-! ## The jumps -/

theorem State.jump_plain {s : State} (r : RegIdx) (h : s.cfg.jumpCompat = false) :
    s.jump r = s.setPc (zext9 (s.reg r)) := by
  simp [State.jump, h, State.targetOperand]

theorem State.jump_compat {s : State} (r : RegIdx) (h : s.cfg.jumpCompat = true) :
    s.jump r = s.orFault (s.callTo r) := by
  simp [State.jump, h]

theorem State.jumpIf_true (r : RegIdx) : s.jumpIf true r = s.jump r := rfl

theorem State.jumpIf_false (r : RegIdx) : s.jumpIf false r = s.advancePast .r := rfl

/-! ## One inversion lemma for the stack effects: what an answer can be -/

theorem State.push_cases (r : RegIdx) :
    (s.sp = 0 ∧ s.orFault (s.push r) = s.takeFault .stackUnderflow) ∨
      (s.sp ≠ 0 ∧ s.orFault (s.push r) = ((s.setReg 7 (s.sp - 1)).memWrite (s.sp - 1)
        (if r = 7 then s.sp - 1 else s.reg r)).advancePast .r) := by
  by_cases h : s.sp = 0
  · exact .inl ⟨h, by simp [State.push_zero r h]⟩
  · exact .inr ⟨h, by simp [State.push_pos r h]⟩

theorem State.callTo_cases (r : RegIdx) :
    (s.sp = 0 ∧ s.orFault (s.callTo r) = s.takeFault .stackUnderflow) ∨
      (s.sp ≠ 0 ∧ s.orFault (s.callTo r) = ((s.setReg 7 (s.sp - 1)).memWrite (s.sp - 1) s.returnAddress).setPc
        (zext9 (if r = 7 then s.sp - 1 else s.reg r))) := by
  by_cases h : s.sp = 0
  · exact .inl ⟨h, by simp [State.callTo_zero r h]⟩
  · exact .inr ⟨h, by simp [State.callTo_pos r h]⟩

theorem State.pop_cases (r : RegIdx) :
    (∃ v, s.cfg.spInit ≤ v ∧ s.orFault (s.pop r) = s.takeFault (.stackOverflow v)) ∨
      (s.sp < s.cfg.spInit ∧ ∃ v w, s.orFault (s.pop r) = ((s.setReg r v).setReg 7 w).advancePast .r) := by
  by_cases h : s.cfg.spInit ≤ s.sp
  · exact .inl ⟨s.sp, h, by simp [State.pop_limit r h]⟩
  · have h' : s.sp < s.cfg.spInit := by simpa using h
    by_cases hr : r = 7
    · subst hr
      by_cases hv : s.cfg.spInit ≤ s.memRead s.sp
      · exact .inl ⟨_, hv, by simp [State.pop_sp_limit h' hv]⟩
      · have hv' : s.memRead s.sp < s.cfg.spInit := by simpa using hv
        exact .inr ⟨h', _, _, by rw [State.pop_sp_below h' hv']; rfl⟩
    · exact .inr ⟨h', _, _, by rw [State.pop_below hr h']; rfl⟩

theorem State.returnFrom_cases :
    (s.cfg.spInit ≤ s.sp ∧ s.orFault s.returnFrom = s.takeFault (.stackOverflow s.sp)) ∨
      (s.sp < s.cfg.spInit ∧
        s.orFault s.returnFrom = (s.setReg 7 (s.sp + 1)).setPc (zext9 (s.memRead s.sp))) := by
  by_cases h : s.cfg.spInit ≤ s.sp
  · exact .inl ⟨h, by simp [State.returnFrom_limit h]⟩
  · have h' : s.sp < s.cfg.spInit := by simpa using h
    exact .inr ⟨h', by simp [State.returnFrom_below h']⟩

theorem State.jump_cases (r : RegIdx) :
    (s.cfg.jumpCompat = true ∧ s.jump r = s.orFault (s.callTo r)) ∨
      (s.cfg.jumpCompat = false ∧ s.jump r = s.setPc (zext9 (s.reg r))) := by
  cases h : s.cfg.jumpCompat
  · exact .inr ⟨rfl, State.jump_plain r h⟩
  · exact .inl ⟨rfl, State.jump_compat r h⟩

end Sys2Proof.Machine
end

