-- ==== Sys2Proof/Laws/Exec.lean ====
section
/-! SUPPORT. What every instruction can do, said once: the inversion of exec, and what no instruction changes. -/

namespace Sys2Proof.Machine

/-- PUSH's next state when SP is not 0. -/
abbrev State.pushed (s : State) (r : RegIdx) : State :=
  ((s.setReg 7 (s.sp - 1)).memWrite (s.sp - 1) (if r = 7 then s.sp - 1 else s.reg r)).advancePast .r

/-- CALL's next state when SP is not 0, and a taken jump's under JUMP_COMPAT. -/
abbrev State.called (s : State) (r : RegIdx) : State :=
  ((s.setReg 7 (s.sp - 1)).memWrite (s.sp - 1) s.returnAddress).setPc (zext9 (if r = 7 then s.sp - 1 else s.reg r))

/-- The next states an instruction can answer, with the condition of each. -/
inductive Effect (s : State) : Instr → State → Prop where
  | hlt : Effect s .hlt s.halt
  | ldi (r : RegIdx) (imm : Byte) : Effect s (.ldi r imm) ((s.setReg r imm).advancePast .ri)
  | prn (r : RegIdx) : Effect s (.prn r) ((s.emit (s.reg r)).advancePast .r)
  | mul (a b : RegIdx) :
    Effect s (.mul a b) ((s.setReg a (BitVec.ofNat 8 ((s.reg a).toNat * (s.reg b).toNat))).advancePast .rr)
  | add (a b : RegIdx) :
    Effect s (.add a b) ((s.setReg a (BitVec.ofNat 8 ((s.reg a).toNat + (s.reg b).toNat))).advancePast .rr)
  | cmp (a b : RegIdx) : Effect s (.cmp a b) ((s.setFl (compareFlags (s.reg a) (s.reg b))).advancePast .rr)
  | push (r : RegIdx) (h : s.sp ≠ 0) : Effect s (.push r) (s.pushed r)
  | pushFault (r : RegIdx) (h : s.sp = 0) : Effect s (.push r) (s.takeFault .stackUnderflow)
  | pop (r : RegIdx) (hr : r ≠ 7) (h : s.sp < s.cfg.spInit) :
    Effect s (.pop r) (((s.setReg r (s.memRead s.sp)).setReg 7 (s.sp + 1)).advancePast .r)
  | popSp (h : s.sp < s.cfg.spInit) (hv : s.memRead s.sp < s.cfg.spInit) :
    Effect s (.pop 7) (((s.setReg 7 (s.memRead s.sp)).setReg 7 (s.memRead s.sp + 1)).advancePast .r)
  | popFault (r : RegIdx) (h : s.cfg.spInit ≤ s.sp) : Effect s (.pop r) (s.takeFault (.stackOverflow s.sp))
  | popSpFault (h : s.sp < s.cfg.spInit) (hv : s.cfg.spInit ≤ s.memRead s.sp) :
    Effect s (.pop 7) (s.takeFault (.stackOverflow (s.memRead s.sp)))
  | ret (h : s.sp < s.cfg.spInit) : Effect s .ret ((s.setReg 7 (s.sp + 1)).setPc (zext9 (s.memRead s.sp)))
  | retFault (h : s.cfg.spInit ≤ s.sp) : Effect s .ret (s.takeFault (.stackOverflow s.sp))
  | call (i : Instr) (r : RegIdx) (hi : i = .call r ∨ s.cfg.jumpCompat = true ∧ s.takesJump i r) (h : s.sp ≠ 0) :
    Effect s i (s.called r)
  | callFault (i : Instr) (r : RegIdx) (hi : i = .call r ∨ s.cfg.jumpCompat = true ∧ s.takesJump i r) (h : s.sp = 0) :
    Effect s i (s.takeFault .stackUnderflow)
  | jump (i : Instr) (r : RegIdx) (hc : s.cfg.jumpCompat = false) (hi : s.takesJump i r) :
    Effect s i (s.setPc (zext9 (s.reg r)))
  | notTaken (i : Instr) (r : RegIdx) (hi : i = .jeq r ∧ s.fl[0] = false ∨ i = .jne r ∧ s.fl[0] = true) :
    Effect s i (s.advancePast .r)

theorem Effect.callTo (s : State) (i : Instr) (r : RegIdx)
    (hi : i = .call r ∨ s.cfg.jumpCompat = true ∧ s.takesJump i r) : Effect s i (s.orFault (s.callTo r)) := by
  rcases s.callTo_cases r with ⟨h, e⟩ | ⟨h, e⟩ <;> rw [e]
  · exact .callFault i r hi h
  · exact .call i r hi h

theorem Effect.jumps (s : State) (i : Instr) (r : RegIdx) (hi : s.takesJump i r) : Effect s i (s.jump r) := by
  rcases s.jump_cases r with ⟨hc, e⟩ | ⟨hc, e⟩ <;> rw [e]
  · exact .callTo s i r (.inr ⟨hc, hi⟩)
  · exact .jump i r hc hi

theorem exec_effect {i : Instr} {s t : State} (h : exec i s = .next t) : Effect s i t := by
  cases i with
  | hlt => cases h; exact .hlt
  | ldi r imm => cases h; exact .ldi r imm
  | prn r => cases h; exact .prn r
  | mul a b => cases h; exact .mul a b
  | add a b => cases h; exact .add a b
  | cmp a b => cases h; exact .cmp a b
  | push r =>
    cases h
    rcases s.push_cases r with ⟨h, e⟩ | ⟨h, e⟩ <;> rw [e]
    · exact .pushFault r h
    · exact .push r h
  | pop r =>
    cases h
    by_cases hl : s.cfg.spInit ≤ s.sp
    · rw [State.pop_limit r hl]
      exact .popFault r hl
    · have hl' : s.sp < s.cfg.spInit := by simpa using hl
      by_cases hr : r = 7
      · subst hr
        by_cases hv : s.cfg.spInit ≤ s.memRead s.sp
        · rw [State.pop_sp_limit hl' hv]
          exact .popSpFault hl' hv
        · have hv' : s.memRead s.sp < s.cfg.spInit := by simpa using hv
          rw [State.pop_sp_below hl' hv']
          exact .popSp hl' hv'
      · rw [State.pop_below hr hl']
        exact .pop r hr hl'
  | call r => cases h; exact .callTo s _ r (.inl rfl)
  | ret =>
    cases h
    rcases s.returnFrom_cases with ⟨h, e⟩ | ⟨h, e⟩ <;> rw [e]
    · exact .retFault h
    · exact .ret h
  | jmp r => cases h; exact .jumps s _ r (.inl rfl)
  | jeq r =>
    cases h
    cases he : s.fl[0]
    · have : s.jumpIf s.flagE r = s.advancePast .r := by simp [State.flagE, he, State.jumpIf_false]
      rw [this]
      exact .notTaken _ r (.inl ⟨rfl, he⟩)
    · have : s.jumpIf s.flagE r = s.jump r := by simp [State.flagE, he, State.jumpIf_true]
      rw [this]
      exact .jumps s _ r (.inr (.inl ⟨rfl, he⟩))
  | jne r =>
    cases h
    cases he : s.fl[0]
    · have : s.jumpIf (!s.flagE) r = s.jump r := by simp [State.flagE, he, State.jumpIf_true]
      rw [this]
      exact .jumps s _ r (.inr (.inr ⟨rfl, he⟩))
    · have : s.jumpIf (!s.flagE) r = s.advancePast .r := by simp [State.flagE, he, State.jumpIf_false]
      rw [this]
      exact .notTaken _ r (.inr ⟨rfl, he⟩)

/-- Every instruction answers a next state: none stops the machine outside the spec's own outcomes. -/
theorem exec_next (i : Instr) (s : State) : ∃ t, exec i s = .next t := by
  cases i <;> exact ⟨_, rfl⟩

theorem exec_takesJump {s : State} {i : Instr} {r : RegIdx} (h : s.takesJump i r) : exec i s = .next (s.jump r) := by
  rcases h with rfl | ⟨rfl, he⟩ | ⟨rfl, he⟩
  · rfl
  · show Host.Outcome.next _ = _
    simp [State.flagE, he, State.jumpIf_true]
  · show Host.Outcome.next _ = _
    simp [State.flagE, he, State.jumpIf_true]

/-- An instruction answers the next state whose condition holds. -/
theorem exec_of_effect {s t : State} {i : Instr} (h : Effect s i t) : exec i s = .next t := by
  have push : ∀ r, exec (.push r) s = .next (s.orFault (s.push r)) := fun _ => rfl
  have pop : ∀ r, exec (.pop r) s = .next (s.orFault (s.pop r)) := fun _ => rfl
  have ret : exec .ret s = .next (s.orFault s.returnFrom) := rfl
  have calls : ∀ j r, (j = .call r ∨ s.cfg.jumpCompat = true ∧ s.takesJump j r) →
      exec j s = .next (s.orFault (s.callTo r)) := by
    rintro j r (rfl | ⟨hc, hj⟩)
    · rfl
    · rw [exec_takesJump hj, State.jump_compat r hc]
  cases h with
  | hlt => rfl
  | ldi r imm => rfl
  | prn r => rfl
  | mul a b => rfl
  | add a b => rfl
  | cmp a b => rfl
  | push r h => rw [push, State.push_pos r h]; rfl
  | pushFault r h => rw [push, State.push_zero r h]; rfl
  | pop r hr h => rw [pop, State.pop_below hr h]; rfl
  | popSp h hv => rw [pop, State.pop_sp_below h hv]; rfl
  | popFault r h => rw [pop, State.pop_limit r h]; rfl
  | popSpFault h hv => rw [pop, State.pop_sp_limit h hv]; rfl
  | ret h => rw [ret, State.returnFrom_below h]; rfl
  | retFault h => rw [ret, State.returnFrom_limit h]; rfl
  | call i r hi h => rw [calls i r hi, State.callTo_pos r h]; rfl
  | callFault i r hi h => rw [calls i r hi, State.callTo_zero r h]; rfl
  | jump i r hc hi => rw [exec_takesJump hi, State.jump_plain r hc]
  | notTaken i r hi =>
    rcases hi with ⟨rfl, he⟩ | ⟨rfl, he⟩
    · show Host.Outcome.next _ = _
      simp [State.flagE, he, State.jumpIf_false]
    · show Host.Outcome.next _ = _
      simp [State.flagE, he, State.jumpIf_false]

/-- No instruction changes the constants or counts the cycle itself. -/
theorem Effect.cfg_cyc {s t : State} {i : Instr} (h : Effect s i t) : t.cfg = s.cfg ∧ t.cyc = s.cyc := by
  cases h <;> exact ⟨rfl, rfl⟩

/-- An instruction faults with exactly one of the two stack faults, and then changes nothing else; or it leaves the run
state alone, but for HLT. -/
theorem Effect.outcome {s t : State} {i : Instr} (h : Effect s i t) :
    (∃ e, t = s.takeFault e ∧
      ((e = .stackUnderflow ∧ s.sp = 0) ∨ ∃ v, e = .stackOverflow v ∧ s.cfg.spInit ≤ v)) ∨
      (i = .hlt ∧ t = s.halt) ∨ (i ≠ .hlt ∧ t.rs = s.rs ∧ t.cause = s.cause ∧ t.info = s.info) := by
  cases h with
  | hlt => exact .inr (.inl ⟨rfl, rfl⟩)
  | pushFault r h => exact .inl ⟨_, rfl, .inl ⟨rfl, h⟩⟩
  | callFault i r hi h => exact .inl ⟨_, rfl, .inl ⟨rfl, h⟩⟩
  | popFault r h => exact .inl ⟨_, rfl, .inr ⟨_, rfl, h⟩⟩
  | popSpFault h hv => exact .inl ⟨_, rfl, .inr ⟨_, rfl, hv⟩⟩
  | retFault h => exact .inl ⟨_, rfl, .inr ⟨_, rfl, h⟩⟩
  | call i r hi h => exact .inr (.inr ⟨by rcases hi with rfl | ⟨_, rfl | ⟨rfl, _⟩ | ⟨rfl, _⟩⟩ <;> simp, rfl, rfl, rfl⟩)
  | jump i r hc hi => exact .inr (.inr ⟨by rcases hi with rfl | ⟨rfl, _⟩ | ⟨rfl, _⟩ <;> simp, rfl, rfl, rfl⟩)
  | notTaken i r hi => exact .inr (.inr ⟨by rcases hi with ⟨rfl, _⟩ | ⟨rfl, _⟩ <;> simp, rfl, rfl, rfl⟩)
  | _ => exact .inr (.inr ⟨by simp, rfl, rfl, rfl⟩)

/-- Every instruction keeps the canonical form of memory. -/
theorem Effect.memory_wf {s t : State} {i : Instr} (h : Effect s i t) (hm : Memory.wf s.mem = true) :
    Memory.wf t.mem = true := by
  cases h with
  | push r h => exact State.memWrite_wf (s := s.setReg 7 (s.sp - 1)) _ _ hm
  | call i r hi h => exact State.memWrite_wf (s := s.setReg 7 (s.sp - 1)) _ _ hm
  | _ => exact hm

end Sys2Proof.Machine
end

