-- ==== Sys2Proof/Laws/PerInstr.lean ====
section
/-! SUPPORT. One fact for every instruction, made per constructor: the shape of its encoding (spec/30_encoding.md R60, R62). -/

/-- Bits 5 and 4 of the thirteen opcode values (R62). -/
theorem Sys2Proof.Laws.opcode_bits (op : Sys2Proof.Op) :
    op.opcode.getLsbD 5 = (op == .mul || op == .add || op == .cmp) ∧
      op.opcode.getLsbD 4 = (op == .call || op == .ret || op == .jmp || op == .jeq || op == .jne) := by
  cases op <;> decide

/-- The encoding is as long as the instruction (R60), begins with the opcode byte, and that byte's bits 7:6 are the
operand count, bit 5 is set exactly for the three ALU instructions and bit 4 exactly for the five that set PC (R62). -/
def Sys2Proof.Laws.EncodingShape.Statement (i : Sys2Proof.Instr) : Prop :=
  (Sys2Proof.encode i).length = i.length ∧
    (Sys2Proof.encode i).head? = some i.op.opcode ∧
    (i.op.opcode >>> 6).toNat = i.format.operandCount ∧
    i.op.opcode.getLsbD 5 = (i.op == .mul || i.op == .add || i.op == .cmp) ∧
    i.op.opcode.getLsbD 4 = (i.op == .call || i.op == .ret || i.op == .jmp || i.op == .jeq || i.op == .jne)

/-- An instruction's format and operand count go with its opcode's bits 7:6 (R62). -/
theorem Sys2Proof.Laws.encoding_shape (i : Sys2Proof.Instr) : Sys2Proof.Laws.EncodingShape.Statement i := by
  refine ⟨?_, rfl, ?_, Sys2Proof.Laws.opcode_bits _⟩
  · cases i <;> rfl
  · cases i <;> simp [Sys2Proof.Instr.op, Sys2Proof.Op.opcode, Sys2Proof.Instr.format, Sys2Proof.Format.operandCount]

theorem Sys2Proof.Laws.EncodingShape.hlt : Sys2Proof.Laws.EncodingShape.Statement .hlt :=
  Sys2Proof.Laws.encoding_shape _

theorem Sys2Proof.Laws.EncodingShape.ldi (reg : Sys2Proof.RegIdx) (imm : Sys2Proof.Byte) :
    Sys2Proof.Laws.EncodingShape.Statement (.ldi reg imm) :=
  Sys2Proof.Laws.encoding_shape _

theorem Sys2Proof.Laws.EncodingShape.prn (reg : Sys2Proof.RegIdx) :
    Sys2Proof.Laws.EncodingShape.Statement (.prn reg) :=
  Sys2Proof.Laws.encoding_shape _

theorem Sys2Proof.Laws.EncodingShape.mul (regA regB : Sys2Proof.RegIdx) :
    Sys2Proof.Laws.EncodingShape.Statement (.mul regA regB) :=
  Sys2Proof.Laws.encoding_shape _

theorem Sys2Proof.Laws.EncodingShape.add (regA regB : Sys2Proof.RegIdx) :
    Sys2Proof.Laws.EncodingShape.Statement (.add regA regB) :=
  Sys2Proof.Laws.encoding_shape _

theorem Sys2Proof.Laws.EncodingShape.cmp (regA regB : Sys2Proof.RegIdx) :
    Sys2Proof.Laws.EncodingShape.Statement (.cmp regA regB) :=
  Sys2Proof.Laws.encoding_shape _

theorem Sys2Proof.Laws.EncodingShape.push (reg : Sys2Proof.RegIdx) :
    Sys2Proof.Laws.EncodingShape.Statement (.push reg) :=
  Sys2Proof.Laws.encoding_shape _

theorem Sys2Proof.Laws.EncodingShape.pop (reg : Sys2Proof.RegIdx) :
    Sys2Proof.Laws.EncodingShape.Statement (.pop reg) :=
  Sys2Proof.Laws.encoding_shape _

theorem Sys2Proof.Laws.EncodingShape.call (reg : Sys2Proof.RegIdx) :
    Sys2Proof.Laws.EncodingShape.Statement (.call reg) :=
  Sys2Proof.Laws.encoding_shape _

theorem Sys2Proof.Laws.EncodingShape.ret :
    Sys2Proof.Laws.EncodingShape.Statement .ret :=
  Sys2Proof.Laws.encoding_shape _

theorem Sys2Proof.Laws.EncodingShape.jmp (reg : Sys2Proof.RegIdx) :
    Sys2Proof.Laws.EncodingShape.Statement (.jmp reg) :=
  Sys2Proof.Laws.encoding_shape _

theorem Sys2Proof.Laws.EncodingShape.jeq (reg : Sys2Proof.RegIdx) :
    Sys2Proof.Laws.EncodingShape.Statement (.jeq reg) :=
  Sys2Proof.Laws.encoding_shape _

theorem Sys2Proof.Laws.EncodingShape.jne (reg : Sys2Proof.RegIdx) :
    Sys2Proof.Laws.EncodingShape.Statement (.jne reg) :=
  Sys2Proof.Laws.encoding_shape _
end

