-- ==== Sys2Proof/Laws/Step.lean ====
section
/-! SUPPORT. What a step can do, said once: the stages before execute, the end of a cycle, and the inversion of step. -/

namespace Sys2Proof.Machine

/-! ## The stages before execute -/

theorem State.cycleLimitReached_eq (s : State) :
    s.cycleLimitReached = !(s.cfg.maxCycles.all fun n => decide (s.cyc < n)) := by
  unfold State.cycleLimitReached
  cases s.cfg.maxCycles with
  | none => rfl
  | some n => simp [← decide_not]

theorem State.fetch_high {s : State} (h : 253 < s.pc.toNat) : s.fetch = .error .memoryBounds := by
  unfold State.fetch
  rw [if_pos (by omega)]

theorem State.fetch_low {s : State} (h : s.pc.toNat ≤ 253) :
    s.fetch = .ok ⟨s.memRead (s.pc.setWidth 8), s.memRead ((s.pc + 1).setWidth 8), s.memRead ((s.pc + 2).setWidth 8)⟩ := by
  unfold State.fetch
  rw [if_neg (by omega)]

/-- A cycle that reaches execute passed every earlier check. -/
theorem State.beginCycle_ok {s : State} {i : Instr} (h : s.beginCycle = .ok i) :
    s.cycleLimitReached = false ∧ s.pc.toNat ≤ 253 ∧ ∃ l, s.fetch = .ok l ∧ decode l = .ok i := by
  unfold State.beginCycle at h
  split at h
  · exact absurd h (by simp)
  · rename_i hl
    split at h
    · exact absurd h (by simp)
    · rename_i l hf
      split at h
      · exact absurd h (by simp)
      · rename_i j hd
        refine ⟨by simpa using hl, ?_, l, hf, by simpa [hd] using h⟩
        by_contra hp
        rw [State.fetch_high (by omega)] at hf
        exact absurd hf (by simp)

/-- A running core whose bytes at PC decode begins its cycle with that instruction. -/
theorem State.beginCycle_presents {s : State} {ir opa opb : Byte} {i : Instr} (h : s.presents ir opa opb)
    (hd : decode ⟨ir, opa, opb⟩ = .ok i) : s.beginCycle = .ok i := by
  obtain ⟨⟨_, hl⟩, hp, rfl, rfl, rfl⟩ := h
  simp only [State.beginCycle, State.cycleLimitReached_eq, hl, State.fetch_low hp, hd, Bool.not_true, Bool.false_eq_true,
    if_false]

/-- A running core whose bytes at PC do not decode faults. -/
theorem State.beginCycle_undecodable {s : State} {ir opa opb : Byte} {e : DecodeError} (h : s.presents ir opa opb)
    (hd : decode ⟨ir, opa, opb⟩ = .error e) : s.beginCycle = .error (Trap.ofDecode e) := by
  obtain ⟨⟨_, hl⟩, hp, rfl, rfl, rfl⟩ := h
  simp only [State.beginCycle, State.cycleLimitReached_eq, hl, State.fetch_low hp, hd, Bool.not_true, Bool.false_eq_true,
    if_false]

/-! ## Execute and the end of a cycle -/

/-- Without the guard a completed cycle leaves the state as it is (40_execution_cycle.md R81). -/
theorem State.countCycle_none {s : State} (h : s.cfg.maxCycles = none) : s.countCycle = s := by
  unfold State.countCycle
  simp only [h, Option.isSome_none, Bool.false_eq_true, if_false]

/-- With the guard a completed cycle counts one (40_execution_cycle.md R81). -/
theorem State.countCycle_some {s : State} {n : Nat} (h : s.cfg.maxCycles = some n) :
    s.countCycle = { s with cyc := s.cyc + 1 } := by
  unfold State.countCycle
  simp only [h, Option.isSome_some, if_true]

theorem State.completeCycle_faulted {s : State} (h : s.rs = .faulted) : s.completeCycle = s := by
  simp [State.completeCycle, h]

theorem State.completeCycle_counts {s : State} (h : s.rs ≠ .faulted) : s.completeCycle = s.countCycle := by
  unfold State.completeCycle
  split <;> simp_all

/-- The end of a cycle touches CYC alone. -/
theorem State.completeCycle_eq (s : State) : s.completeCycle = { s with cyc := s.completeCycle.cyc } := by
  unfold State.completeCycle
  split <;> rfl

/-! ## The inversion of step -/

theorem step_stopped {s : State} (h : s.rs ≠ .running) : step s = .next s := by
  unfold step
  split <;> simp_all

theorem step_error {s : State} {t : Trap} (hr : s.rs = .running) (h : s.beginCycle = .error t) :
    step s = .next (s.takeFault t) := by
  simp [step, hr, h]

theorem step_ok {s u : State} {i : Instr} (hr : s.rs = .running) (h : s.beginCycle = .ok i) (hx : exec i s = .next u) :
    step s = .next u.completeCycle := by
  simp [step, hr, h, hx, endCycle]

/-- What a step can do: nothing when the core is stopped; a fault before execute; or one instruction. -/
theorem step_cases {s t : State} (h : step s = .next t) :
    (s.rs ≠ .running ∧ t = s) ∨
      (s.rs = .running ∧ ∃ e, s.beginCycle = .error e ∧ t = s.takeFault e) ∨
      (s.rs = .running ∧ ∃ i u, s.beginCycle = .ok i ∧ exec i s = .next u ∧ t = u.completeCycle) := by
  by_cases hr : s.rs = .running
  · cases hb : s.beginCycle with
    | error e =>
      rw [step_error hr hb] at h
      exact .inr (.inl ⟨hr, e, rfl, by simpa using h.symm⟩)
    | ok i =>
      obtain ⟨u, hu⟩ := exec_next i s
      rw [step_ok hr hb hu] at h
      exact .inr (.inr ⟨hr, i, u, rfl, hu, by simpa using h.symm⟩)
  · rw [step_stopped hr] at h
    exact .inl ⟨hr, by simpa using h.symm⟩

/-! ## Runs -/

@[simp] theorem State.run_zero (s : State) : s.run 0 = .next s := rfl

theorem State.run_succ {s t : State} (k : Nat) (h : step s = .next t) : State.run (k + 1) s = State.run k t := by
  show Host.Core.run Sys2Proof.core (k + 1) s = _
  have h' : Sys2Proof.core.step s = .next t := h
  simp only [Host.Core.run, h']

end Sys2Proof.Machine
end

