-- ==== Sys2Proof/Machine/Text.lean ====
section
/-! DEFINITION. The two textual forms of code, both outside the core: the program file the loader reads and the spelling of instructions (spec/30_encoding.md R70, R71). -/

namespace Sys2Proof.Machine

/-! ## The program file (R70) -/

/-- What one line of a program file is. -/
inductive ProgramLine where
  /-- blank, or a comment only: ignored -/
  | ignored
  /-- eight binary digits, the first one bit 7, with or without a comment after them -/
  | byte (v : Byte)
  /-- anything else: the spec does not say what the loader does with it (91_not_in_source.md N15) -/
  | unstated
deriving DecidableEq, Repr

/-- A line up to its `#`, if it has one, without the blanks at its end. R70 does not say which characters are blank: only
the space is here, so a tab or a carriage return makes the line `unstated` (DESIGN CHOICE, log entry 18). -/
def lineText (line : List Char) : List Char :=
  ((line.takeWhile (· != '#')).reverse.dropWhile (· == ' ')).reverse

/-- The value of binary digits, most significant first. -/
def binaryValue (digits : List Char) : Nat := digits.foldl (fun n d => 2 * n + (if d = '1' then 1 else 0)) 0

/-- How the loader reads a line (R70). -/
def readLine (line : List Char) : ProgramLine :=
  let t := lineText line
  if t = [] then .ignored
  else if t.length = 8 ∧ t.all (fun d => d == '0' || d == '1') = true then .byte (BitVec.ofNat 8 (binaryValue t))
  else .unstated

/-- The image a program file stands for: the Nth line with a byte gives the byte at address N - 1. None when the file
has a line the spec says nothing about. -/
def readProgram : List (List Char) → Option (List Byte)
  | [] => some []
  | line :: rest =>
    match readLine line with
    | .ignored => readProgram rest
    | .byte v => (readProgram rest).map (v :: ·)
    | .unstated => none

/-! ## The spelling of instructions (R71) -/

/-- The mnemonics of 30_encoding.md R63. -/
def Op.mnemonic : Op → String
  | .hlt => "HLT"
  | .ldi => "LDI"
  | .prn => "PRN"
  | .mul => "MUL"
  | .add => "ADD"
  | .cmp => "CMP"
  | .push => "PUSH"
  | .pop => "POP"
  | .call => "CALL"
  | .ret => "RET"
  | .jmp => "JMP"
  | .jeq => "JEQ"
  | .jne => "JNE"

/-- A number in decimal. -/
def decimalText (v : Byte) : List Char := (decimalDigits v).map fun d => Char.ofNat (48 + d)

/-- A register: `R0` to `R7`. -/
def registerText (r : RegIdx) : List Char := 'R' :: decimalText (regByte r)

/-- The operands in the order of the table's "Operands" column, separated by a comma. -/
def operandText : Instr → List Char
  | .hlt => []
  | .ldi r imm => registerText r ++ ',' :: decimalText imm
  | .prn r => registerText r
  | .mul a b => registerText a ++ ',' :: registerText b
  | .add a b => registerText a ++ ',' :: registerText b
  | .cmp a b => registerText a ++ ',' :: registerText b
  | .push r => registerText r
  | .pop r => registerText r
  | .call r => registerText r
  | .ret => []
  | .jmp r => registerText r
  | .jeq r => registerText r
  | .jne r => registerText r

/-- The spelling of an instruction: the mnemonic, then the operands after a blank. -/
def asmText (i : Instr) : List Char :=
  (Op.mnemonic i.op).toList ++
    match operandText i with
    | [] => []
    | ops => ' ' :: ops

end Sys2Proof.Machine
end

