-- ==== Sys2Proof/Tests/Slice0.lean ====
section
/-! SUPPORT. The model's own tests. Every expected result is a vector of spec/95_test_vectors.md (cited as T<n>) or is read from the rule cited. The last part shows, for every statement with hypotheses, that something meets them. -/

namespace Sys2Proof.Tests

open Sys2Proof Sys2Proof.Machine

/-! ## A small state, and one step of it -/

/-- Put bytes at an address of a state built for a test. -/
def poke (s : State) (p : Addr × Byte) : State := s.memWrite p.1 p.2

/-- The reset state with PC, the bytes there, some registers, FL and some bytes of memory set. -/
def st (pc : Nat) (code : List Byte) (regs : List (RegIdx × Byte)) (fl : Byte) (data : List (Addr × Byte)) : State :=
  let s : State := { State.reset with pc := BitVec.ofNat 9 pc, fl := fl, mem := Memory.writeAll [] pc code }
  data.foldl poke (regs.foldl (fun u p => u.setReg p.1 p.2) s)

/-- The same core with JUMP_COMPAT true. -/
def compat (s : State) : State := { s with cfg := { s.cfg with jumpCompat := true } }

/-- The same core with the cycle guard, some cycles completed. -/
def guarded (limit cyc : Nat) (s : State) : State :=
  { s with cfg := { s.cfg with maxCycles := some limit }, cyc := cyc }

/-- An outcome is a next state with a property. -/
def answers (o : Host.Outcome State Fault Refusal) (p : State → Bool) : Bool :=
  match o with
  | .next t => p t
  | .fault _ => false
  | .refused _ => false

/-- The step leaves the core running at a PC, with a property. -/
def goesTo (s : State) (pc : Word9) (p : State → Bool) : Bool :=
  answers (step s) fun t => t.pc == pc && t.rs == .running && p t

/-- The step is exactly a fault: nothing but RS, CAUSE and INFO differs. -/
def faults (s : State) (c : Cause) (info : Word9) : Bool := answers (step s) fun t => t == s.faultedWith c info

theorem answers_next {o : Host.Outcome State Fault Refusal} {p : State → Bool} (h : answers o p = true) :
    ∃ t, o = .next t ∧ p t = true := by
  cases o with
  | next t => exact ⟨t, rfl, h⟩
  | fault r => cases h
  | refused r => cases h

/-! ## WellFormed refuses ill-formed operand bytes (30_encoding.md R66) and no others (R65, R67) -/

theorem test_wellformed_refuses :
    operandsWellFormed .r 8 0 = false ∧ operandsWellFormed .ri 9 0 = false ∧ operandsWellFormed .rr 8 0 = false ∧
      operandsWellFormed .rr 0 9 = false := by decide

theorem test_wellformed_accepts :
    operandsWellFormed .z 255 255 = true ∧ operandsWellFormed .r 7 255 = true ∧ operandsWellFormed .ri 7 255 = true ∧
      operandsWellFormed .rr 7 7 = true := by decide

/-! ## Decoding: words written out bit by bit from 30_encoding.md R61 and R63 -/

theorem test_decode_control :
    decode ⟨0b00000001, 0b11111111, 0b11111111⟩ = .ok .hlt ∧
      decode ⟨0b10000010, 0b00000101, 0b11111111⟩ = .ok (.ldi 5 255) ∧
      decode ⟨0b01000111, 0b00000111, 0b10000000⟩ = .ok (.prn 7) := by decide

theorem test_decode_alu :
    decode ⟨0b10100010, 0b00000000, 0b00000001⟩ = .ok (.mul 0 1) ∧
      decode ⟨0b10100000, 0b00000010, 0b00000101⟩ = .ok (.add 2 5) ∧
      decode ⟨0b10100111, 0b00000110, 0b00000011⟩ = .ok (.cmp 6 3) := by decide

theorem test_decode_stack :
    decode ⟨0b01000101, 0b00000100, 0b00000000⟩ = .ok (.push 4) ∧
      decode ⟨0b01000110, 0b00000001, 0b11110000⟩ = .ok (.pop 1) ∧
      decode ⟨0b01010000, 0b00000001, 0b00000000⟩ = .ok (.call 1) ∧
      decode ⟨0b00010001, 0b10000000, 0b00000000⟩ = .ok .ret := by decide

theorem test_decode_branch :
    decode ⟨0b01010100, 0b00000101, 0b00000000⟩ = .ok (.jmp 5) ∧
      decode ⟨0b01010101, 0b00000011, 0b00000000⟩ = .ok (.jeq 3) ∧
      decode ⟨0b01010110, 0b00000010, 0b00000000⟩ = .ok (.jne 2) := by decide

/-- R68, R66: neighbours of defined opcodes and register bytes above 7 do not decode. -/
theorem test_decode_refuses :
    decode ⟨0x00, 0, 0⟩ = .error (.illegalInstruction 0x00) ∧
      decode ⟨0xA1, 0, 0⟩ = .error (.illegalInstruction 0xA1) ∧
      decode ⟨0x83, 0, 0⟩ = .error (.illegalInstruction 0x83) ∧
      decode ⟨0x82, 8, 1⟩ = .error (.registerBounds 8) ∧ decode ⟨0xA0, 8, 9⟩ = .error (.registerBounds 8) ∧
      decode ⟨0xA0, 0, 9⟩ = .error (.registerBounds 9) := by decide

/-- Exactly the thirteen byte values of R63 are opcodes. -/
theorem test_thirteen_opcodes :
    ((List.range 256).filter fun n => (Op.ofByte? (BitVec.ofNat 8 n)).isSome) =
      [0x01, 0x11, 0x45, 0x46, 0x47, 0x50, 0x54, 0x55, 0x56, 0x82, 0xA0, 0xA2, 0xA7] := by decide

/-- The host's numbering: bit 0 is the least significant bit of the opcode byte, operand bytes follow upwards. -/
theorem test_table_words :
    decodeTableWord 8 0x01 = some .hlt ∧ decodeTableWord 24 0x080082 = some (.ldi 0 8) ∧
      decodeTableWord 16 0x0747 = some (.prn 7) ∧ decodeTableWord 8 0xFF11 = some .ret ∧
      decodeTableWord 8 0x82 = some (.ldi 0 0) ∧ decodeTableWord 8 0x00 = none := by decide

/-- A table word placed by withFetchWord is what the next step runs, from reset. -/
theorem test_with_fetch_word :
    goesTo (State.reset.withFetchWord 24 0x090182) 3 (fun t => t.reg 1 == 9) = true ∧
      answers (step (State.reset.withFetchWord 8 0x01)) (fun t => t.rs == .halted) = true := by decide

/-! ## Fetch and decode faults -/

/-- T1, T2, T3, T5, T6, T7. -/
theorem test_fetch_and_opcode_faults :
    faults (st 0 [0x00, 0x00, 0x00] [] 0 []) .illegalInstruction 0x00 = true ∧
      faults (st 0 [0xFF, 0x00, 0x00] [] 0 []) .illegalInstruction 0xFF = true ∧
      faults (st 0 [0xA1, 0x00, 0x00] [] 0 []) .illegalInstruction 0xA1 = true ∧
      faults (st 254 [0x01, 0x00] [] 0 []) .memoryBounds 256 = true ∧
      faults (st 255 [0x01] [] 0 []) .memoryBounds 256 = true ∧
      faults (st 256 [] [] 0 []) .memoryBounds 256 = true := by decide

/-- T9a, T9b, T9c, T9d, T9f. -/
theorem test_operand_faults :
    faults (st 0 [0x82, 0x08, 0x01] [] 0 []) .registerBounds 8 = true ∧
      faults (st 0 [0xA0, 0x08, 0x09] [] 0 []) .registerBounds 8 = true ∧
      faults (st 0 [0xA0, 0x00, 0x09] [] 0 []) .registerBounds 9 = true ∧
      faults (st 0 [0x47, 0xFF] [] 0 []) .registerBounds 255 = true ∧
      faults (st 0 [0x45, 0x09] [(7, 0)] 0 []) .registerBounds 9 = true := by decide

/-- T9g, T9h. -/
theorem test_cycle_guard :
    faults (guarded 5 5 (st 3 [0x01] [] 0 [])) .cycleLimit 0 = true ∧
      answers (step (guarded 5 4 (st 0 [0x01] [] 0 []))) (fun t => t.rs == .halted && t.cyc == 5) = true := by decide

/-! ## Instructions, one step each -/

/-- T8, T9e, T17. -/
theorem test_hlt :
    answers (step (st 253 [0x01, 0x00, 0x00] [] 0 []))
        (fun t => t.rs == .halted && t.cause == .halt && t.info == 0 && t.pc == 253) = true ∧
      answers (step (st 0 [0x01, 0xFF, 0xFF] [] 0 [])) (fun t => t.rs == .halted && t.pc == 0) = true := by decide

/-- T9, T10, T11, T12. -/
theorem test_ldi :
    goesTo (st 253 [0x82, 0x01, 0x07] [] 0 []) 256 (fun t => t.reg 1 == 7) = true ∧
      goesTo (st 0 [0x82, 0x00, 0x08] [] 0 []) 3 (fun t => t.reg 0 == 8) = true ∧
      goesTo (st 9 [0x82, 0x03, 0x00] [(3, 0x55)] 0 []) 12 (fun t => t.reg 3 == 0) = true ∧
      goesTo (st 0 [0x82, 0x07, 0x20] [] 0 []) 3 (fun t => t.sp == 0x20) = true := by decide

/-- T14, T15. -/
theorem test_prn :
    goesTo (st 3 [0x47, 0x00] [(0, 8)] 0 []) 5 (fun t => t.out == [8]) = true ∧
      goesTo (st 0 [0x47, 0x07] [] 0 []) 2 (fun t => t.out == [244]) = true := by decide

/-- 41_control_load_output.md R105: the lines `8`, `244`, `0`. -/
theorem test_render : renderOut [8, 244, 0] = "8\n244\n0\n".toList := by decide

/-- T20, T22, T23. -/
theorem test_mul :
    goesTo (st 0 [0xA2, 0x00, 0x01] [(0, 8), (1, 9)] 4 []) 3
        (fun t => t.reg 0 == 72 && t.reg 1 == 9 && t.fl == 4) = true ∧
      goesTo (st 0 [0xA2, 0x02, 0x02] [(2, 255)] 0 []) 3 (fun t => t.reg 2 == 1) = true ∧
      goesTo (st 0 [0xA2, 0x01, 0x01] [(1, 100)] 0 []) 3 (fun t => t.reg 1 == 16) = true := by decide

/-- T25, T27, T36. -/
theorem test_add :
    goesTo (st 0 [0xA0, 0x00, 0x00] [(0, 21)] 0 []) 3 (fun t => t.reg 0 == 42) = true ∧
      goesTo (st 0 [0xA0, 0x00, 0x01] [(0, 200), (1, 100)] 2 []) 3
        (fun t => t.reg 0 == 44 && t.reg 1 == 100 && t.fl == 2) = true ∧
      goesTo (st 0 [0xA0, 0x07, 0x00] [(7, 0xF4), (0, 2)] 0 []) 3 (fun t => t.sp == 0xF6) = true := by decide

/-- T30, T31, T33, T34. -/
theorem test_cmp :
    goesTo (st 0 [0xA7, 0x00, 0x02] [(0, 3), (2, 3)] 4 []) 3 (fun t => t.fl == 1 && t.reg 0 == 3) = true ∧
      goesTo (st 0 [0xA7, 0x00, 0x02] [(0, 1), (2, 3)] 0 []) 3 (fun t => t.fl == 4) = true ∧
      goesTo (st 0 [0xA7, 0x04, 0x05] [(4, 0x80), (5, 0x7F)] 0 []) 3 (fun t => t.fl == 2) = true ∧
      goesTo (st 0 [0xA7, 0x04, 0x05] [(4, 0), (5, 255)] 0 []) 3 (fun t => t.fl == 4) = true := by decide

/-- T40, T41, T42. -/
theorem test_push :
    goesTo (st 3 [0x45, 0x00] [(0, 5)] 0 []) 5 (fun t => t.sp == 0xF3 && t.memRead 0xF3 == 5) = true ∧
      goesTo (st 0 [0x45, 0x07] [] 0 []) 2 (fun t => t.sp == 0xF3 && t.memRead 0xF3 == 0xF3) = true ∧
      goesTo (st 6 [0x45, 0x00] [(0, 0xAB), (7, 1)] 0 []) 8 (fun t => t.sp == 0 && t.memRead 0 == 0xAB) = true := by
  decide

/-- T44, T57. -/
theorem test_push_limits :
    faults (st 3 [0x45, 0x00] [(0, 1), (7, 0)] 0 []) .stackUnderflow 0 = true ∧
      answers (exec (.push 0) ((State.resetWith { spInit := 0x10, jumpCompat := false, maxCycles := none }).setReg 0 1))
        (fun t => t.sp == 0x0F && t.memRead 0x0F == 1) = true := by decide

/-- T45, T46. -/
theorem test_pop :
    goesTo (st 5 [0x46, 0x01] [(7, 0xF3)] 0 [(0xF3, 5)]) 7
        (fun t => t.reg 1 == 5 && t.sp == 0xF4 && t.memRead 0xF3 == 5) = true ∧
      goesTo (st 0 [0x46, 0x07] [(7, 0xF3)] 0 [(0xF3, 0x20)]) 2 (fun t => t.sp == 0x21) = true := by decide

/-- T47, T48, T49. -/
theorem test_pop_limits :
    faults (st 0 [0x46, 0x00] [] 0 []) .stackOverflow 0xF4 = true ∧
      faults (st 8 [0x46, 0x01] [(7, 0xFE)] 0 []) .stackOverflow 0xFE = true ∧
      faults (st 0 [0x46, 0x07] [(7, 0xF3)] 0 [(0xF3, 0xF4)]) .stackOverflow 0xF4 = true := by decide

/-- T50, T51, T53. -/
theorem test_call :
    goesTo (st 6 [0x50, 0x01] [(1, 11)] 0 []) 11 (fun t => t.sp == 0xF3 && t.memRead 0xF3 == 8) = true ∧
      goesTo (st 0 [0x50, 0x07] [] 0 []) 0xF3 (fun t => t.sp == 0xF3 && t.memRead 0xF3 == 2) = true ∧
      goesTo (st 253 [0x50, 0x00, 0x77] [] 0 []) 0 (fun t => t.sp == 0xF3 && t.memRead 0xF3 == 255) = true := by decide

/-- T52. -/
theorem test_call_limit : faults (st 4 [0x50, 0x01] [(1, 9), (7, 0)] 0 []) .stackUnderflow 0 = true := by decide

/-- T54, T55, T56. -/
theorem test_ret :
    goesTo (st 14 [0x11] [(7, 0xF3)] 0 [(0xF3, 8)]) 8 (fun t => t.sp == 0xF4) = true ∧
      faults (st 0 [0x11] [] 0 []) .stackOverflow 0xF4 = true ∧
      goesTo (st 5 [0x11] [(7, 0xF3)] 0 [(0xF3, 0xFE)]) 0xFE (fun t => t.sp == 0xF4) = true := by decide

/-- T60, T61, T72, T75. -/
theorem test_jmp :
    goesTo (st 3 [0x54, 0x00] [(0, 0x20)] 0 []) 0x20 (fun t => t.sp == 0xF4 && t.memRead 0xF3 == 0) = true ∧
      goesTo (st 3 [0x54, 0x00] [(0, 3)] 0 []) 3 (fun _ => true) = true ∧
      goesTo (compat (st 3 [0x54, 0x00] [(0, 0x20)] 0 [])) 0x20 (fun t => t.sp == 0xF3 && t.memRead 0xF3 == 5) = true ∧
      faults (compat (st 6 [0x54, 0x00] [(0, 6), (7, 0)] 0 [])) .stackUnderflow 0 = true := by decide

/-- T63, T64, T66, T71. -/
theorem test_jeq :
    goesTo (st 20 [0x55, 0x03] [(3, 12)] 1 []) 12 (fun t => t.fl == 1) = true ∧
      goesTo (st 20 [0x55, 0x03] [(3, 12)] 4 []) 22 (fun t => t.fl == 4) = true ∧
      goesTo (st 3 [0x55, 0x00] [(0, 6)] 0 []) 5 (fun _ => true) = true ∧
      faults (st 0 [0x55, 0x08] [] 0 []) .registerBounds 8 = true := by decide

/-- T76, T77. -/
theorem test_jeq_compat :
    faults (compat (st 20 [0x55, 0x03] [(3, 12), (7, 0)] 1 [])) .stackUnderflow 0 = true ∧
      goesTo (compat (st 20 [0x55, 0x03] [(3, 12), (7, 0)] 4 [])) 22 (fun t => t.sp == 0) = true := by decide

/-- T67, T69, T70. -/
theorem test_jne :
    goesTo (st 20 [0x56, 0x03] [(3, 12)] 4 []) 12 (fun _ => true) = true ∧
      goesTo (st 20 [0x56, 0x03] [(3, 12)] 1 []) 22 (fun _ => true) = true ∧
      goesTo (st 3 [0x56, 0x00] [(0, 6)] 0 []) 6 (fun _ => true) = true := by decide

/-- T73, T74. -/
theorem test_jne_compat :
    goesTo (compat (st 20 [0x56, 0x03] [(3, 12)] 4 [])) 12 (fun t => t.sp == 0xF3 && t.memRead 0xF3 == 22) = true ∧
      goesTo (compat (st 20 [0x56, 0x03] [(3, 12)] 1 [])) 22 (fun t => t.sp == 0xF4 && t.memRead 0xF3 == 0) = true := by
  decide

/-- 60_exceptions.md R171: TRACE shows PC, FL, the three bytes at PC and the registers. -/
theorem test_trace :
    (st 254 [0x12, 0x34] [] 2 []).trace =
      { pc := 254, fl := 2, nextBytes := [some 0x12, some 0x34, none], regs := #v[0, 0, 0, 0, 0, 0, 0, 0xF4] } := by
  decide

/-- W1: the program file of the source's scenario, with a blank and a comment line put in. -/
theorem test_program_file :
    readProgram (["10000010 # LDI R0,8", "00000000", "00001000", "", "01000111 # PRN R0", "# R0", "00000000",
      "00000001 # HLT"].map String.toList) = some [0x82, 0x00, 0x08, 0x47, 0x00, 0x01] ∧
      readProgram [['2']] = none := by decide

/-- The spelling of the source's scenario and of the other operand shapes (30_encoding.md R71). -/
theorem test_spelling :
    [Instr.ldi 0 8, .prn 0, .hlt, .cmp 6 3].map asmText = ["LDI R0,8", "PRN R0", "HLT", "CMP R6,R3"].map String.toList := by
  decide

/-! ## Witnesses: every statement's hypotheses are met, each clause at a boundary of its range -/

theorem witness_EncodeOfDecode : decode ⟨0xA0, 7, 7⟩ = .ok (.add 7 7) ∧ decode ⟨0x01, 255, 255⟩ = .ok .hlt := by decide

theorem witness_DecodeTrichotomy :
    (0x00 : Byte) ∉ definedOpcodes ∧ ((0x82 : Byte) ∈ regOpcodes ∧ 7 < (8 : Byte).toNat) ∧
      ((0xA2 : Byte) ∈ regRegOpcodes ∧ (7 : Byte).toNat ≤ 7 ∧ 7 < (8 : Byte).toNat) ∧
      ((0x11 : Byte) ∈ definedOpcodes ∧ (0x11 : Byte) ∉ regOpcodes ∧ (0x11 : Byte) ∉ regRegOpcodes) ∧
      ((0xA7 : Byte) ∈ definedOpcodes ∧ (7 : Byte).toNat ≤ 7) := by decide

/-- The operand clauses of every per-instruction statement: the last register number and the first byte above it. -/
theorem witness_operand_bytes :
    (7 : Byte).toNat = (7 : RegIdx).val ∧ (0 : Byte).toNat = (0 : RegIdx).val ∧ 7 < (8 : Byte).toNat := by decide

theorem witness_HltHalts : (st 253 [0x01, 0x00, 0x00] [] 0 []).presents 0x01 0x00 0x00 := by decide

/-- Equal, greater and less, at the ends of the range. -/
theorem witness_CmpSetsOneFlag :
    let s := st 0 [] [(0, 255), (1, 255), (2, 0)] 0 []
    (s.reg 0).toNat = (s.reg 1).toNat ∧ (s.reg 2).toNat < (s.reg 0).toNat ∧ (s.reg 2).toNat < (s.reg 1).toNat := by
  decide

theorem witness_ImmediateIsWholeByte :
    decode ⟨0x82, 7, 0xFF⟩ = .ok (.ldi 7 0xFF) ∧ (Instr.ldi 7 0xFF).format = .ri := by decide

/-- Two states that agree on R0 and R1 and differ in R2, PC, FL and memory; one word for each of the three opcodes. -/
theorem witness_AluIsPure :
    (let s := st 0 [] [(0, 255), (1, 1)] 0 [];
      let s' := st 9 [0x45] [(0, 255), (1, 1), (2, 3)] 4 [(0xF0, 1)];
      s'.reg 0 = s.reg 0 ∧ s'.reg 1 = s.reg 1 ∧ s' ≠ s) ∧
      decode ⟨0xA0, 0, 1⟩ = .ok (.add 0 1) ∧ decode ⟨0xA2, 7, 7⟩ = .ok (.mul 7 7) ∧
      decode ⟨0xA7, 0, 7⟩ = .ok (.cmp 0 7) := by decide

theorem witness_PushStoresAtNewTop : (st 0 [] [(7, 0)] 0 []).sp = 0 ∧ (st 0 [] [(7, 1)] 0 []).sp ≠ 0 := by decide

/-- Stack empty; one below empty with another register, and with R7 and a loaded byte at and below the limit. -/
theorem witness_PopLoadsTop :
    (let s := st 0 [] [] 0 []; s.cfg.spInit ≤ s.sp) ∧
      (let s := st 0 [] [(7, 0xF3)] 0 [(0xF3, 0xF4)];
        s.sp < s.cfg.spInit ∧ (6 : RegIdx) ≠ 7 ∧ s.cfg.spInit ≤ s.memRead s.sp) ∧
      (let s := st 0 [] [(7, 0xF3)] 0 [(0xF3, 0xF3)]; s.sp < s.cfg.spInit ∧ s.memRead s.sp < s.cfg.spInit) := by decide

theorem witness_CallPushesReturnAddress :
    (st 253 [] [(7, 0)] 0 []).sp = 0 ∧ (st 253 [] [(7, 1)] 0 []).sp ≠ 0 ∧ (st 253 [] [] 0 []).pc.toNat ≤ 253 := by decide

theorem witness_RetPopsIntoPc :
    (let s := st 0 [] [] 0 []; s.cfg.spInit ≤ s.sp) ∧ (let s := st 0 [] [(7, 0xF3)] 0 []; s.sp < s.cfg.spInit) := by decide

theorem witness_jumps :
    (compat (st 0 [] [] 0 [])).cfg.jumpCompat = true ∧ (st 0 [] [] 0 []).cfg.jumpCompat = false ∧
      (st 0 [] [] 1 []).fl[0] = true ∧ (st 0 [] [] 1 []).cfg.jumpCompat = false ∧ (st 0 [] [] 6 []).fl[0] = false ∧
      (let s := st 0 [] [] 1 [];
        (7 : Byte)[0] = s.fl[0] ∧ answers (exec (.jeq 0) s) (fun _ => true) = true ∧
          answers (exec (.jne 0) s) (fun _ => true) = true) := by decide

theorem witness_CompatJumpPushes :
    (let s := compat (st 0 [] [(7, 0)] 1 []);
      s.cfg.jumpCompat = true ∧ s.takesJump (.jmp 7) 7 ∧ s.takesJump (.jeq 7) 7 ∧ s.sp = 0) ∧
      (let s := compat (st 253 [] [(7, 1)] 4 []);
        s.cfg.jumpCompat = true ∧ s.takesJump (.jne 0) 0 ∧ s.sp ≠ 0 ∧ s.pc.toNat ≤ 253) := by decide

/-- A state in which a CMP is fetched, decoded and executed. -/
theorem witness_StepRunsDecoded :
    let s := st 253 [0xA7, 0x00, 0x07] [] 0 []
    s.presents 0xA7 0 7 ∧ decode ⟨0xA7, 0, 7⟩ = .ok (.cmp 0 7) ∧ answers (exec (.cmp 0 7) s) (fun _ => true) = true := by
  decide

theorem witness_IllegalOpcodeFaults :
    (st 253 [0xFF, 0x00, 0x00] [] 0 []).presents 0xFF 0 0 ∧ (0xFF : Byte) ∉ definedOpcodes := by decide

theorem witness_FaultPriority_before_decode :
    (let s := guarded 5 5 (st 254 [] [] 0 []); s.rs = .running ∧ s.cfg.maxCycles = some 5 ∧ 5 ≤ s.cyc) ∧
      (let s := guarded 5 4 (st 254 [] [] 0 []); s.rs = .running ∧ s.mayStart ∧ 253 < s.pc.toNat) ∧
      (st 0 [0x02, 0x08] [] 0 []).presents 0x02 8 0 ∧ (st 0 [0x45, 0x08] [(7, 0)] 0 []).presents 0x45 8 0 ∧
      (st 0 [0xA7, 0x07, 0x08] [] 0 []).presents 0xA7 7 8 := by decide

theorem witness_FaultPriority_stack :
    (let s := st 0 [0x45, 0x07] [(7, 0)] 0 []; s.presents 0x45 7 0 ∧ s.sp = 0) ∧
      (let s := compat (st 0 [0x55, 0x07] [(7, 0)] 1 []); s.presents 0x55 7 0 ∧ s.fl[0] = true ∧ s.sp = 0) ∧
      (let s := compat (st 0 [0x56, 0x07] [(7, 0)] 2 []); s.presents 0x56 7 0 ∧ s.fl[0] = false ∧ s.sp = 0) ∧
      (let s := st 0 [0x11] [] 0 []; s.presents 0x11 0 0 ∧ s.cfg.spInit ≤ s.sp) ∧
      (let s := st 0 [0x46, 0x07] [(7, 0xF3)] 0 [(0xF3, 0xF4)];
        s.presents 0x46 7 0 ∧ s.sp < s.cfg.spInit ∧ s.cfg.spInit ≤ s.memRead s.sp) := by decide

theorem witness_NoOtherFault :
    (let s := st 253 [0x45, 0x07] [(7, 1)] 0 [];
      s.presents 0x45 7 0 ∧ decode ⟨0x45, 7, 0⟩ = .ok (.push 7) ∧ s.stackRoom (.push 7) = true) ∧
      (let s := st 0 [0x46, 0x07] [(7, 0xF3)] 0 [(0xF3, 0xF3)];
        s.presents 0x46 7 0 ∧ decode ⟨0x46, 7, 0⟩ = .ok (.pop 7) ∧ s.stackRoom (.pop 7) = true) ∧
      (st 0 [0x01] [] 0 []).stackRoom .hlt = true := by decide

theorem witness_FaultsArePrecise : ∃ t, State.reset.rs = .running ∧ step State.reset = .next t ∧ t.rs = .faulted := by
  obtain ⟨t, h, p⟩ := answers_next (o := step State.reset) (p := fun t => t.rs == .faulted) (by decide)
  exact ⟨t, rfl, h, by simpa using p⟩

theorem witness_PcLaw :
    let s := st 253 [0x55, 0x03, 0x00] [(3, 12)] 1 []
    s.presents 0x55 3 0 ∧ decode ⟨0x55, 3, 0⟩ = .ok (.jeq 3) ∧ answers (step s) (fun t => t.rs != .faulted) = true := by
  decide

theorem witness_PcReaches256OnlyFrom253 :
    let s := st 253 [0x82, 0x01, 0x07] [] 0 []
    s.rs = .running ∧ s.pc = 253 ∧ s.memRead 253 ∈ ([0x82, 0xA2, 0xA0, 0xA7] : List Byte) ∧ s.pc.toNat ≤ 255 ∧
      answers (step s) (fun t => t.pc == 256 && t.rs != .faulted) = true := by decide

theorem witness_CycleGuardCounts :
    (let s := st 0 [0x54, 0x00] [] 0 [];
      s.rs = .running ∧ s.cfg.maxCycles = none ∧ s.cause ≠ .cycleLimit ∧ answers (step s) (fun _ => true) = true) ∧
      (let s := guarded 1 1 (st 0 [0x54, 0x00] [] 0 []);
        s.rs = .running ∧ s.cfg.maxCycles = some 1 ∧ 1 ≤ s.cyc ∧ answers (step s) (fun _ => true) = true) ∧
      (let s := guarded 1 0 (st 0 [0x54, 0x00] [] 0 []); s.cyc < 1 ∧ answers (step s) (fun t => t.rs != .faulted) = true) ∧
      (let s := guarded 1 0 (st 0 [0x54, 0x08] [] 0 []); s.cyc < 1 ∧ answers (step s) (fun t => t.rs == .faulted) = true) := by
  decide

theorem witness_CycleGuardStopsEveryRun :
    let s := guarded 2 2 (st 0 [0x54, 0x00] [] 0 [])
    s.cfg.maxCycles = some 2 ∧ s.cyc ≤ 2 ∧ 2 < s.cyc + 1 := by decide

theorem witness_StoppedCoreNeverMoves :
    (State.reset.halt).rs ≠ .running ∧ (State.reset.takeFault .memoryBounds).rs ≠ .running := by decide

theorem witness_StepKeepsInvariant :
    let s := guarded 1 0 (st 253 [0x50, 0x00, 0x77] [(0, 255)] 4 [])
    s.Inv ∧ answers (step s) (fun _ => true) = true := by decide

theorem witness_ResetMeetsInvariant :
    Config.wf Config.default ∧ Config.wf { spInit := 1, jumpCompat := true, maxCycles := some 0 } := by decide

/-- A program that halts, loaded and run for its two cycles; the first of two steps leaves the core running, the second
stops it. -/
theorem witness_ReachableStatesMeetInvariant : ∃ t u v, Config.wf Config.default ∧
    (State.resetWith Config.default).load [0x47, 0x07, 0x01] = some t ∧ State.run 1 t = .next u ∧ u.rs = .running ∧
      State.run 2 t = .next v ∧ v.rs ≠ .running :=
  ⟨_, _, _, by decide, rfl, rfl, by decide, rfl, by decide⟩

theorem witness_ConstantsNeverChange : ∃ t, State.run 2 (st 0 [0x47, 0x07, 0x01] [] 0 []) = .next t := ⟨_, rfl⟩

theorem witness_FlagsSetByCmpReadByBranches :
    (∃ t, exec (.jeq 3) (st 0 [] [(3, 9)] 1 []) = .next t) ∧ (∀ a b, Instr.jeq 3 ≠ .cmp a b) ∧
      (7 : Byte)[0] = (st 0 [] [(3, 9)] 1 []).fl[0] ∧ (∃ t, exec .hlt State.reset = .next t) ∧
      ∀ a b, Instr.hlt ≠ .cmp a b :=
  ⟨⟨_, rfl⟩, (fun _ _ h => nomatch h), by decide, ⟨_, rfl⟩, (fun _ _ h => nomatch h)⟩

theorem witness_MemoryWrittenOnlyByPushes :
    let s := st 0 [] [(0, 5), (7, 1)] 0 []
    answers (exec (.push 0) s) (fun t => t.memRead 0 != s.memRead 0) = true ∧
      answers (exec (.jmp 0) (compat s)) (fun t => t.memRead 0 != s.memRead 0) = true := by decide

theorem witness_RegistersWritten :
    let s := st 0 [] [(7, 0xF3)] 0 [(0xF3, 9)]
    answers (exec (.pop 0) s) (fun t => t.reg 0 != s.reg 0 && t.reg 7 != s.reg 7) = true ∧
      answers (exec (.ldi 3 1) s) (fun t => t.reg 3 != s.reg 3) = true := by decide

theorem witness_OutWrittenOnlyByPrn :
    answers (step (st 0 [0x47, 0x07] [] 0 [])) (fun t => t.out != []) = true ∧
      answers (step State.reset) (fun t => t.out == []) = true := by decide

theorem witness_OutIsNotRead : answers (step (st 0 [0x47, 0x07] [] 0 [])) (fun _ => true) = true := by decide

theorem witness_AluUnsupportedNeverRaised :
    State.reset.cause ≠ .aluUnsupported ∧ answers (step State.reset) (fun _ => true) = true := by decide

/-- A PUSH at 0 that stores onto the first, second or third byte of the instruction at 2. -/
theorem witness_StoreSeenByNextFetch_push :
    (let s := st 0 [0x45, 0x00] [(7, 3)] 0 [];
      s.presents 0x45 (regByte 0) 0 ∧ s.sp ≠ 0 ∧
        answers (step s) (fun t => t.pc.toNat ≤ 253 && t.pc.setWidth 8 == s.sp - 1) = true) ∧
      (let s := st 0 [0x45, 0x00] [(7, 4)] 0 [];
        answers (step s) (fun t => t.pc.toNat ≤ 253 && (t.pc + 1).setWidth 8 == s.sp - 1) = true) ∧
      (let s := st 0 [0x45, 0x00] [(7, 5)] 0 [];
        answers (step s) (fun t => t.pc.toNat ≤ 253 && (t.pc + 2).setWidth 8 == s.sp - 1) = true) := by decide

/-- A CALL to 253 that stores onto one of the last three bytes of memory. -/
theorem witness_StoreSeenByNextFetch_call :
    (let s := st 0 [0x50, 0x00] [(0, 253), (7, 254)] 0 [];
      s.presents 0x50 (regByte 0) 0 ∧ s.sp ≠ 0 ∧
        answers (step s) (fun t => t.pc.toNat ≤ 253 && t.pc.setWidth 8 == s.sp - 1) = true) ∧
      (let s := st 0 [0x50, 0x00] [(0, 253), (7, 255)] 0 [];
        answers (step s) (fun t => t.pc.toNat ≤ 253 && (t.pc + 1).setWidth 8 == s.sp - 1) = true) ∧
      (let s := st 0 [0x50, 0x00] [(0, 252), (7, 255)] 0 [];
        answers (step s) (fun t => t.pc.toNat ≤ 253 && (t.pc + 2).setWidth 8 == s.sp - 1) = true) := by decide

theorem witness_PushPopRoundTrip :
    (let s := st 0 [] [] 0 []; (0 : RegIdx) ≠ 7 ∧ (6 : RegIdx) ≠ 7 ∧ (0 : RegIdx) ≠ 6 ∧ s.sp ≠ 0 ∧ s.sp ≤ s.cfg.spInit) ∧
      (let s := st 0 [] [(7, 1)] 0 []; s.sp ≠ 0 ∧ s.sp ≤ s.cfg.spInit) := by decide

theorem witness_CallRetRoundTrip :
    let s := st 253 [] [] 0 []
    s.sp ≠ 0 ∧ s.sp ≤ s.cfg.spInit ∧ s.pc.toNat ≤ 253 ∧
      ∃ t u : State, exec (.call 1) s = .next t ∧ u.cfg = t.cfg ∧ u.sp = t.sp ∧ u.memRead u.sp = t.memRead t.sp :=
  ⟨by decide, by decide, by decide, _, _, rfl, rfl, rfl, rfl⟩

/-- ADD R0,R1 with LDI R2,9 and with MUL R2,R1, which reads but does not write the ADD's source. -/
theorem witness_AluIndependence :
    (2 : RegIdx) ≠ 0 ∧ (2 : RegIdx) ≠ 1 ∧ (1 : RegIdx) ≠ 0 ∧
      ∃ t u v : State, exec (.add 0 1) State.reset = .next t ∧ exec (.ldi 2 9) t = .next u ∧ exec (.mul 2 1) t = .next v :=
  ⟨by decide, by decide, by decide, _, _, _, rfl, rfl, rfl⟩

theorem witness_MemoryCanonical :
    Memory.wf (Memory.write [] 255 7) = true ∧ Memory.wf (Memory.write (Memory.write [] 0 9) 255 7) = true ∧
      Memory.write (Memory.write [] 255 7) 0 9 = Memory.write (Memory.write [] 0 9) 255 7 := by decide

theorem witness_LoadContract :
    (∃ image : List Byte, 256 < image.length ∧ image.length = 257) ∧ (∃ image : List Byte, image.length = 256) ∧
      Memory.wf State.reset.mem = true := by
  have replicates : ∀ n, ∃ image : List Byte, image.length = n := fun n => ⟨List.replicate n 1, List.length_replicate⟩
  obtain ⟨image, h⟩ := replicates 257
  exact ⟨⟨image, by omega, h⟩, replicates 256, rfl⟩

theorem witness_FirstCycleFetchesImage :
    (∃ t, (State.resetWith Config.default).load [0x01] = some t) ∧
      (∃ t, (State.resetWith Config.default).load [] = some t) ∧ Config.default.maxCycles ≠ some 0 :=
  ⟨⟨_, rfl⟩, ⟨_, rfl⟩, by decide⟩

/-- 70_reset_and_hazards.md R186: the protocol allows Reset, Load, Start and a cycle in this order. -/
theorem witness_HostProtocol :
    ((((Session.mk State.reset .started).apply .reset).bind (·.apply (.load [0x01]))).bind (·.apply .start)).bind
      (·.apply .cycle) = some { core := { State.reset.halt with mem := [(0, 1)] }, phase := .started } := by decide

end Sys2Proof.Tests
end

/-! # 10_state.md: what writes FL and what reads it -/

section

namespace Sys2Proof.Machine

/-! ## FL as an effect leaves it -/

theorem Effect.fl_eq_of_ne_cmp {s t : State} {i : Instr} (h : Effect s i t) (hi : ∀ a b, i ≠ .cmp a b) :
    t.fl = s.fl := by
  cases h with
  | cmp a b => exact absurd rfl (hi a b)
  | _ => rfl

/-- CMP replaces the whole of FL (10_state.md R28), so what FL held before is lost. -/
theorem exec_cmp_setFl (s : State) (a b : RegIdx) (f : Byte) : exec (.cmp a b) (s.setFl f) = exec (.cmp a b) s := by
  rw [exec_of_effect (.cmp (s := s) a b), exec_of_effect (.cmp (s := s.setFl f) a b)]
  rfl

/-! ## FL as an effect reads it -/

/-- The new FL agrees with the old in what the instruction reads of it: bit 0, for JEQ and JNE only (10_state.md R28). -/
def State.flReadAs (s : State) (i : Instr) (f : Byte) : Prop := (∃ r, i = .jeq r ∨ i = .jne r) → f[0] = s.fl[0]

theorem State.takesJump_setFl {s : State} {i : Instr} {r : RegIdx} {f : Byte} (hf : s.flReadAs i f)
    (h : s.takesJump i r) : (s.setFl f).takesJump i r := by
  rcases h with hi | ⟨hi, he⟩ | ⟨hi, he⟩
  · exact .inl hi
  · exact .inr (.inl ⟨hi, (hf ⟨r, .inl hi⟩).trans he⟩)
  · exact .inr (.inr ⟨hi, (hf ⟨r, .inr hi⟩).trans he⟩)

/-- What makes an instruction push a return address does not change with the bits of FL it does not read. -/
theorem State.pushesReturn_setFl {s : State} {i : Instr} {r : RegIdx} {f : Byte} (hf : s.flReadAs i f)
    (h : i = .call r ∨ s.cfg.jumpCompat = true ∧ s.takesJump i r) :
    i = .call r ∨ (s.setFl f).cfg.jumpCompat = true ∧ (s.setFl f).takesJump i r :=
  h.imp_right fun ⟨hc, hj⟩ => ⟨hc, State.takesJump_setFl hf hj⟩

/-- Noninterference: replacing FL before an instruction other than CMP replaces FL after it and changes nothing else.
Each effect is the same constructor again; only those of the jumps have a condition on FL. -/
theorem Effect.setFl {s t : State} {i : Instr} {f : Byte} (h : Effect s i t) (hi : ∀ a b, i ≠ .cmp a b)
    (hf : s.flReadAs i f) : Effect (s.setFl f) i (t.setFl f) := by
  cases h with
  | hlt => exact .hlt
  | ldi r imm => exact .ldi r imm
  | prn r => exact .prn r
  | mul a b => exact .mul a b
  | add a b => exact .add a b
  | cmp a b => exact absurd rfl (hi a b)
  | push r h => exact .push r h
  | pushFault r h => exact .pushFault r h
  | pop r hr h => exact .pop r hr h
  | popSp h hv => exact .popSp h hv
  | popFault r h => exact .popFault r h
  | popSpFault h hv => exact .popSpFault h hv
  | ret h => exact .ret h
  | retFault h => exact .retFault h
  | call _ r hc h => exact .call _ r (State.pushesReturn_setFl hf hc) h
  | callFault _ r hc h => exact .callFault _ r (State.pushesReturn_setFl hf hc) h
  | jump _ r hc hj => exact .jump _ r hc (State.takesJump_setFl hf hj)
  | notTaken _ r hn =>
    rcases hn with ⟨rfl, he⟩ | ⟨rfl, he⟩
    · exact .notTaken _ r (.inl ⟨rfl, (hf ⟨r, .inl rfl⟩).trans he⟩)
    · exact .notTaken _ r (.inr ⟨rfl, (hf ⟨r, .inr rfl⟩).trans he⟩)

/-- Settles O34, from the inversion of `exec` into effects: the effects that write FL, and those that read it. -/
theorem flagsSetByCmpReadByBranches : Obligations.FlagsSetByCmpReadByBranches := by
  refine ⟨fun i s t h hi => ?_, fun a b s f => ?_, fun i s t f hi hf h => ?_⟩
  · exact (exec_effect h).fl_eq_of_ne_cmp hi
  · exact exec_cmp_setFl s a b f
  · exact exec_of_effect ((exec_effect h).setFl hi hf)

end Sys2Proof.Machine

end

/-! # 30_encoding.md: how the three bytes of formats RI and RR decode, and what LDI and CMP do -/

section

namespace Sys2Proof

/-! ## Operand bytes as register numbers -/

theorem eq_regByte {b : Byte} {r : RegIdx} (h : b.toNat = r.val) : b = regByte r := by
  apply BitVec.eq_of_toNat_eq
  rw [h, regByte_toNat]

/-! ## Format RI -/

theorem Instr.eq_ldi_of_format_ri {i : Instr} (h : i.format = .ri) : ∃ r imm, i = .ldi r imm := by
  cases i with
  | ldi r imm => exact ⟨r, imm, rfl⟩
  | _ => cases h

/-- The second operand byte of LDI goes into the instruction as it is (30_encoding.md R65). -/
theorem decode_ldi (opa opb : Byte) : decode ⟨0x82, opa, opb⟩ = withReg opa fun r => .ok (.ldi r opb) :=
  decode_opcode .ldi opa opb

theorem decode_eq_ldi {l : Latches} {r : RegIdx} {imm : Byte} (h : decode l = .ok (.ldi r imm)) :
    l = ⟨0x82, regByte r, imm⟩ := by
  obtain ⟨ir, opa, opb⟩ := l
  have hir : 0x82 = ir := decode_opcode_byte h
  subst hir
  rw [decode_ldi] at h
  obtain ⟨q, rfl, hq⟩ := withReg_ok h
  cases hq
  rfl

end Sys2Proof

namespace Sys2Proof.Machine

theorem decodesRI_ldi : decodesRI 0x82 .ldi := by
  refine fun opa imm => ⟨fun r hr => ?_, fun hopa => ?_⟩ <;> rw [decode_ldi]
  · rw [eq_regByte hr, withReg_regByte]
  · exact withReg_above hopa _

/-! ## Format RR -/

/-- An operation that checks two register bytes, the first one first, decodes as format RR (30_encoding.md R66). -/
theorem decodesRR_of_withOperands {op : Op} {mk : RegIdx → RegIdx → Instr}
    (h : ∀ opa opb, op.withOperands opa opb = withReg opa fun a => withReg opb fun b => .ok (mk a b)) :
    decodesRR op.opcode mk := by
  refine fun opa opb => ⟨fun a b ha hb => ?_, fun hopa => ?_, fun hopa hopb => ?_⟩ <;> rw [decode_opcode, h]
  · rw [eq_regByte ha, eq_regByte hb, withReg_regByte, withReg_regByte]
  · exact withReg_above hopa _
  · obtain ⟨a, rfl⟩ := exists_regByte (b := opa) (by omega)
    rw [withReg_regByte]
    exact withReg_above hopb _

/-! ## FL by the unsigned order (42_alu.md R113) -/

theorem compareFlags_of_eq {a b : Byte} (h : a.toNat = b.toNat) : compareFlags a b = 0b00000001 := if_pos h

theorem compareFlags_of_gt {a b : Byte} (h : b.toNat < a.toNat) : compareFlags a b = 0b00000010 :=
  (if_neg (Nat.ne_of_gt h)).trans (if_pos h)

theorem compareFlags_of_lt {a b : Byte} (h : a.toNat < b.toNat) : compareFlags a b = 0b00000100 :=
  (if_neg (Nat.ne_of_lt h)).trans (if_neg (Nat.lt_asymm h))

/-! ## The statements -/

/-- Settles O6: the format RI decodes LDI, and its one effect writes the register and PC only. -/
theorem ldiLoadsImmediate : Obligations.LdiLoadsImmediate := by
  refine ⟨decodesRI_ldi, fun r imm s => ⟨_, exec_of_effect (.ldi r imm), ?_⟩⟩
  have frame : s.sameRegsBut [r] ((s.setReg r imm).advancePast .ri) := fun q hq => by
    simp [List.ne_of_not_mem_cons hq]
  exact ⟨by simp, by simp, frame, fun _ => rfl, rfl, rfl, rfl, rfl, rfl, rfl, rfl⟩

/-- Settles O10: the format RR decodes CMP, and its one effect writes FL, by the unsigned order, and PC only. -/
theorem cmpSetsOneFlag : Obligations.CmpSetsOneFlag := by
  refine ⟨decodesRR_of_withOperands (op := .cmp) fun _ _ => rfl, fun a b s => ⟨_, exec_of_effect (.cmp a b), ?_⟩⟩
  exact ⟨compareFlags_of_eq, compareFlags_of_gt, compareFlags_of_lt, by simp, fun _ _ => rfl, fun _ => rfl, rfl,
    rfl, rfl, rfl, rfl, rfl⟩

/-- Settles O52: LDI alone has format RI, and the bytes that decode to an LDI are fixed by it, the immediate being the
whole third one; its execution is O6's. -/
theorem immediateIsWholeByte : Obligations.ImmediateIsWholeByte := by
  refine ⟨fun l i h hf => ?_, fun r imm => ?_, fun r imm s => ?_⟩
  · obtain ⟨r, imm, rfl⟩ := Instr.eq_ldi_of_format_ri hf
    obtain rfl := decode_eq_ldi h
    exact ⟨rfl, r, rfl⟩
  · exact (decodesRI_ldi (regByte r) imm).1 r (regByte_toNat r)
  · obtain ⟨t, ht, hreg, -⟩ := ldiLoadsImmediate.2 r imm s
    exact ⟨t, ht, congrArg BitVec.toNat hreg⟩

end Sys2Proof.Machine

end

/-! # 42_alu.md: the ALU is a pure function, and the opcode alone selects its operation -/

section

namespace Sys2Proof

/-! ## The opcode byte selects the operation (42_alu.md R110) -/

theorem decode_op_iff {l : Latches} {i : Instr} (h : decode l = .ok i) (op : Op) : i.op = op ↔ l.ir = op.opcode := by
  rw [← decode_opcode_byte h]
  exact ⟨congrArg Op.opcode, Op.opcode_injective⟩

/-- The operation of an instruction names its constructor; said for the three that use the ALU. -/
theorem Instr.alu_iff_op (i : Instr) :
    ((∃ a b, i = .add a b) ↔ i.op = .add) ∧ ((∃ a b, i = .mul a b) ↔ i.op = .mul) ∧
      ((∃ a b, i = .cmp a b) ↔ i.op = .cmp) := by
  cases i <;> simp [Instr.op]

end Sys2Proof

namespace Sys2Proof.Machine

/-! ## The effect as a function of the two registers -/

/-- ADD and MUL put one fixed function of the two registers in the first one, the same function from every state. -/
theorem exec_add_or_mul {i : Instr} {a b : RegIdx} (h : i = .add a b ∨ i = .mul a b) :
    ∃ f : Byte → Byte → Byte, ∀ s, exec i s = .next ((s.setReg a (f (s.reg a) (s.reg b))).advancePast .rr) := by
  rcases h with rfl | rfl
  · exact ⟨fun x y => BitVec.ofNat 8 (x.toNat + y.toNat), fun _ => exec_of_effect (.add a b)⟩
  · exact ⟨fun x y => BitVec.ofNat 8 (x.toNat * y.toNat), fun _ => exec_of_effect (.mul a b)⟩

theorem State.setReg_advancePast_sameRegsBut (s : State) (r : RegIdx) (v : Byte) (f : Format) :
    s.sameRegsBut [r] ((s.setReg r v).advancePast f) := fun q hq => by
  simp [List.ne_of_not_mem_cons hq]

/-- Settles O53: the effect writes a function of the two registers, and the thirteen opcodes are distinct. -/
theorem aluIsPure : Obligations.AluIsPure := by
  refine ⟨fun i a b s s' hi ha hb => ?_, fun a b s s' ha hb => ?_, fun l i h => ?_⟩
  · obtain ⟨f, hf⟩ := exec_add_or_mul hi
    exact ⟨_, _, hf s, hf s', by simp [ha, hb], rfl, rfl, s.setReg_advancePast_sameRegsBut _ _ _,
      s'.setReg_advancePast_sameRegsBut _ _ _, fun _ => rfl, fun _ => rfl, by simp, by simp⟩
  · exact ⟨_, _, exec_of_effect (.cmp a b), exec_of_effect (.cmp a b), by simp [ha, hb], fun _ _ => rfl,
      fun _ _ => rfl, fun _ => rfl, fun _ => rfl, by simp, by simp⟩
  · obtain ⟨hadd, hmul, hcmp⟩ := i.alu_iff_op
    exact ⟨hadd.trans (decode_op_iff h .add), hmul.trans (decode_op_iff h .mul), hcmp.trans (decode_op_iff h .cmp)⟩

end Sys2Proof.Machine

end

/-! # 44_branch.md: the conditional jumps, taken and not taken -/

section

namespace Sys2Proof.Machine

/-! ## Format R -/

/-- An operation that checks its first operand byte only decodes as format R (30_encoding.md R66). -/
theorem decodesR_of_withOperands {op : Op} {mk : RegIdx → Instr}
    (h : ∀ opa opb, op.withOperands opa opb = withReg opa fun r => .ok (mk r)) : decodesR op.opcode mk := by
  refine fun opa opb => ⟨fun r hr => ?_, fun hopa => ?_⟩ <;> rw [decode_opcode, h]
  · rw [eq_regByte hr, withReg_regByte]
  · exact withReg_above hopa _

/-! ## PC alone changes -/

theorem State.setPc_frame (s : State) (p : Word9) :
    (s.setPc p).pc = p ∧ s.sameRegsBut [] (s.setPc p) ∧ s.sameMemory (s.setPc p) ∧ (s.setPc p).fl = s.fl ∧
      (s.setPc p).out = s.out ∧ s.sameControl (s.setPc p) :=
  ⟨rfl, fun _ _ => rfl, fun _ => rfl, rfl, rfl, rfl, rfl, rfl, rfl, rfl⟩

theorem State.advancePast_r (s : State) : s.advancePast .r = s.setPc (s.pc + 2) :=
  congrArg s.setPc (advancePast_r_pc s)

/-! ## The two outcomes of a conditional jump (44_branch.md R137, R138) -/

/-- A taken jump does what JMP does with the same operand, with either setting of JUMP_COMPAT. -/
theorem exec_eq_jmp_of_takesJump {s : State} {i : Instr} {r : RegIdx} (h : s.takesJump i r) :
    exec i s = exec (.jmp r) s :=
  (exec_takesJump h).trans (exec_takesJump (.inl rfl)).symm

/-- A jump not taken pushes nothing, whatever JUMP_COMPAT is (44_branch.md R139). -/
theorem exec_notTaken {s : State} {i : Instr} {r : RegIdx}
    (h : i = .jeq r ∧ s.fl[0] = false ∨ i = .jne r ∧ s.fl[0] = true) : exec i s = .next (s.setPc (s.pc + 2)) := by
  rw [exec_of_effect (.notTaken i r h), State.advancePast_r]

/-- A conditional jump keeps FL, and reads bit 0 of it alone: the rules of O34, for these two instructions. -/
theorem exec_conditionalJump_fl {s t : State} {i : Instr} {r : RegIdx} {f : Byte} (hi : i = .jeq r ∨ i = .jne r)
    (hf : f[0] = s.fl[0]) (h : exec i s = .next t) :
    t.fl = s.fl ∧ exec i { s with fl := f } = .next { t with fl := f } := by
  obtain ⟨keepsFl, -, readsBit0⟩ := flagsSetByCmpReadByBranches
  have notCmp : ∀ a b, i ≠ .cmp a b := by rcases hi with rfl | rfl <;> simp
  exact ⟨keepsFl i s t h notCmp, readsBit0 i s t f notCmp (fun _ => hf) h⟩

/-! ## The statements -/

/-- Settles O16: JEQ is a taken jump when E is set, and its not-taken effect writes PC only. -/
theorem jeqTestsEqual : Obligations.JeqTestsEqual := by
  refine ⟨decodesR_of_withOperands (op := .jeq) fun _ _ => rfl, fun r s => ?_⟩
  have taken : s.fl[0] = true → s.takesJump (.jeq r) r := fun he => .inr (.inl ⟨rfl, he⟩)
  refine ⟨fun he => ?_, fun he hc => ?_, fun he => ?_, fun f t hf h => ?_⟩
  · exact exec_eq_jmp_of_takesJump (taken he)
  · exact ⟨_, exec_of_effect (.jump _ r hc (taken he)), s.setPc_frame _⟩
  · exact ⟨_, exec_notTaken (.inl ⟨rfl, he⟩), s.setPc_frame _⟩
  · exact exec_conditionalJump_fl (.inl rfl) hf h

/-- Settles O17: JNE is a taken jump when E is clear, and its not-taken effect writes PC only. -/
theorem jneTestsNotEqual : Obligations.JneTestsNotEqual := by
  refine ⟨decodesR_of_withOperands (op := .jne) fun _ _ => rfl, fun r s => ?_⟩
  have taken : s.fl[0] = false → s.takesJump (.jne r) r := fun he => .inr (.inr ⟨rfl, he⟩)
  refine ⟨fun he => ?_, fun he hc => ?_, fun he => ?_, fun f t hf h => ?_⟩
  · exact exec_eq_jmp_of_takesJump (taken he)
  · exact ⟨_, exec_of_effect (.jump _ r hc (taken he)), s.setPc_frame _⟩
  · exact ⟨_, exec_notTaken (.inr ⟨rfl, he⟩), s.setPc_frame _⟩
  · exact exec_conditionalJump_fl (.inr rfl) hf h

end Sys2Proof.Machine

end

/-! # 60_exceptions.md: the fault of an undefined opcode byte -/

section

namespace Sys2Proof.Machine

/-- The list of 40_execution_cycle.md R89 leaves out no operation of the opcode table. -/
theorem opcode_mem_definedOpcodes (op : Op) : op.opcode ∈ definedOpcodes := by
  cases op <;> decide

theorem decode_of_not_mem_definedOpcodes {ir : Byte} (h : ir ∉ definedOpcodes) (opa opb : Byte) :
    decode ⟨ir, opa, opb⟩ = .error (.illegalInstruction ir) := by
  have unlisted : ∀ op : Op, op.opcode ≠ ir := fun op hop => h (hop ▸ opcode_mem_definedOpcodes op)
  exact decode_undefined (Op.ofByte?_none.mpr unlisted)

/-- A cycle whose bytes do not decode is the entry into the decoder's fault (40_execution_cycle.md R84). -/
theorem step_undecodable {s : State} {ir opa opb : Byte} {e : DecodeError} (h : s.presents ir opa opb)
    (hd : decode ⟨ir, opa, opb⟩ = .error e) : step s = .next (s.takeFault (Trap.ofDecode e)) := by
  have ⟨⟨running, _⟩, _⟩ := h
  exact step_error running (State.beginCycle_undecodable h hd)

/-- Settles O20: no operation has such an opcode, so decode reports the byte before anything is executed. -/
theorem illegalOpcodeFaults : Obligations.IllegalOpcodeFaults :=
  fun _ _ opa opb presented undefined =>
    step_undecodable presented (decode_of_not_mem_definedOpcodes undefined opa opb)

end Sys2Proof.Machine

end

/-! # 30_encoding.md: the decoder and the encoder are inverse, and what the decoder answers for every three bytes -/

section

namespace Sys2Proof

/-! ## An instruction and the bytes it is decoded from -/

/-- Operands that are accepted are the instruction's own operand bytes, as far as its format has them, and pass the
check of its format (30_encoding.md R65, R66, R67). -/
theorem Op.withOperands_bytes {op : Op} {opa opb : Byte} {i : Instr} (h : op.withOperands opa opb = .ok i) :
    [opa, opb].take i.format.operandCount = [i.operandBytes.1, i.operandBytes.2].take i.format.operandCount ∧
      operandsWellFormed i.format opa opb = true := by
  cases op <;> simp only [Op.withOperands] at h
  case hlt | ret => cases h; exact ⟨rfl, rfl⟩
  case mul | add | cmp =>
    obtain ⟨a, rfl, ha⟩ := withReg_ok h
    obtain ⟨b, rfl, hb⟩ := withReg_ok ha
    clear h ha
    cases hb
    exact ⟨rfl, by simp [Instr.format, operandsWellFormed]⟩
  all_goals
    obtain ⟨r, rfl, hr⟩ := withReg_ok h
    clear h
    cases hr
    exact ⟨rfl, regByteOk_regByte r⟩

/-- An instruction's own operand bytes are accepted, and a byte its format does not have is ignored. -/
theorem Op.withOperands_of_bytes {i : Instr} {opa opb : Byte}
    (h : [opa, opb].take i.format.operandCount = [i.operandBytes.1, i.operandBytes.2].take i.format.operandCount) :
    i.op.withOperands opa opb = .ok i := by
  cases i with
  | hlt | ret => rfl
  | mul a b | add a b | cmp a b | ldi a b =>
    obtain ⟨rfl, rfl⟩ : opa = regByte a ∧ opb = _ := by
      simpa [Instr.format, Format.operandCount, Instr.operandBytes] using h
    simp [Instr.op, Op.withOperands]
  | _ r =>
    obtain rfl : opa = regByte r := by
      simpa [Instr.format, Format.operandCount, Instr.operandBytes] using h
    simp [Instr.op, Op.withOperands]

/-- Decoding and encoding are two readings of one relation between an instruction and its bytes. -/
theorem decode_iff_encode {l : Latches} {i : Instr} : decode l = .ok i ↔ l.bytes.take i.length = encode i := by
  obtain ⟨ir, opa, opb⟩ := l
  have split : (Latches.bytes ⟨ir, opa, opb⟩).take i.length = ir :: [opa, opb].take i.format.operandCount := by
    rw [Instr.length, Nat.add_comm]
    rfl
  rw [split, encode, List.cons.injEq]
  constructor
  · intro h
    obtain rfl : i.op.opcode = ir := decode_opcode_byte h
    rw [decode_opcode] at h
    exact ⟨rfl, (Op.withOperands_bytes h).1⟩
  · rintro ⟨rfl, h⟩
    rw [decode_opcode]
    exact Op.withOperands_of_bytes h

theorem Instr.length_le (i : Instr) : i.length ≤ 3 := by
  rw [Instr.length]
  cases i.format <;> decide

/-- The latches at the head of a byte sequence that begins with an encoding hold that encoding. -/
theorem take_ofBytes_encode (i : Instr) (u v : Byte) :
    (Latches.ofBytes (encode i ++ [u, v])).bytes.take i.length = encode i := by
  rw [encode, Instr.length]
  cases i.format <;> rfl

/-- Settles O2: the bytes of the encoding are the ones that decide, whatever follows. -/
theorem decodeOfEncode : Obligations.DecodeOfEncode :=
  fun i u v => decode_iff_encode.mpr (take_ofBytes_encode i u v)

/-- Settles O3: the other reading of the same relation. -/
theorem encodeOfDecode : Obligations.EncodeOfDecode :=
  fun _ _ h => decode_iff_encode.mp h

/-! ## The decoder's answers (30_encoding.md R69) -/

theorem exists_opcode_of_mem {ir : Byte} (h : ir ∈ Machine.definedOpcodes) : ∃ op : Op, op.opcode = ir := by
  have h' : ir ∈ Op.all.map Op.opcode := h
  obtain ⟨op, -, hop⟩ := List.mem_map.mp h'
  exact ⟨op, hop⟩

theorem regOpcodes_subset {ir : Byte} (h : ir ∈ Machine.regOpcodes) : ir ∈ Machine.definedOpcodes := by
  have subset : Machine.regOpcodes ⊆ Machine.definedOpcodes := by decide
  exact subset h

theorem regRegOpcodes_subset {ir : Byte} (h : ir ∈ Machine.regRegOpcodes) : ir ∈ Machine.regOpcodes := by
  have subset : Machine.regRegOpcodes ⊆ Machine.regOpcodes := by decide
  exact subset h

/-- The first operand byte is checked first, in the formats that have a register there (30_encoding.md R66). -/
theorem decode_opa_above {ir opa : Byte} (opb : Byte) (hir : ir ∈ Machine.regOpcodes) (h : 7 < opa.toNat) :
    decode ⟨ir, opa, opb⟩ = .error (.registerBounds opa) := by
  obtain ⟨op, rfl⟩ := exists_opcode_of_mem (regOpcodes_subset hir)
  rw [decode_opcode]
  cases op with
  | hlt | ret => exact absurd hir (by decide)
  | _ => simp only [Op.withOperands, withReg_above h]

/-- The second operand byte is checked next, in the format that has a register there (30_encoding.md R66). -/
theorem decode_opb_above {ir opa opb : Byte} (hir : ir ∈ Machine.regRegOpcodes) (ha : opa.toNat ≤ 7)
    (hb : 7 < opb.toNat) : decode ⟨ir, opa, opb⟩ = .error (.registerBounds opb) := by
  obtain ⟨op, rfl⟩ := exists_opcode_of_mem (regOpcodes_subset (regRegOpcodes_subset hir))
  obtain ⟨a, rfl⟩ := exists_regByte (b := opa) (by omega)
  rw [decode_opcode]
  cases op with
  | mul | add | cmp => simp [Op.withOperands, withReg_above hb]
  | _ => exact absurd hir (by decide)

/-- Operand bytes that are register numbers where the format has registers are accepted. -/
theorem exists_decode_ok {ir opa opb : Byte} (hir : ir ∈ Machine.definedOpcodes)
    (ha : ir ∈ Machine.regOpcodes → opa.toNat ≤ 7) (hb : ir ∈ Machine.regRegOpcodes → opb.toNat ≤ 7) :
    ∃ i, decode ⟨ir, opa, opb⟩ = .ok i := by
  obtain ⟨op, rfl⟩ := exists_opcode_of_mem hir
  have opaReg : op.opcode ∈ Machine.regOpcodes → ∃ a : RegIdx, opa = regByte a :=
    fun h => exists_regByte (Nat.lt_succ_of_le (ha h))
  have opbReg : op.opcode ∈ Machine.regRegOpcodes → ∃ b : RegIdx, opb = regByte b :=
    fun h => exists_regByte (Nat.lt_succ_of_le (hb h))
  rw [decode_opcode]
  cases op with
  | hlt | ret => exact ⟨_, rfl⟩
  | mul | add | cmp =>
    obtain ⟨a, rfl⟩ := opaReg (by decide)
    obtain ⟨b, rfl⟩ := opbReg (by decide)
    simp [Op.withOperands]
  | _ =>
    obtain ⟨a, rfl⟩ := opaReg (by decide)
    simp [Op.withOperands]

/-- Settles O1: the words are the encodings, with the bytes that follow where the format has fewer than three. -/
theorem decodeOfWrittenWords : Obligations.DecodeOfWrittenWords := by
  unfold Obligations.DecodeOfWrittenWords
  decide

end Sys2Proof

namespace Sys2Proof.Machine

/-- Settles O4, one lemma for each answer. -/
theorem decodeTrichotomy : Obligations.DecodeTrichotomy := by
  refine fun ir opa opb => ⟨fun h => ?_, fun h ha => ?_, fun h ha hb => ?_, fun h ha hb => ?_⟩
  · exact decode_of_not_mem_definedOpcodes h opa opb
  · exact decode_opa_above opb h ha
  · exact decode_opb_above h ha hb
  · obtain ⟨i, hi⟩ := exists_decode_ok h ha hb
    obtain rfl : i.op.opcode = ir := decode_opcode_byte hi
    rw [decode_opcode] at hi
    exact ⟨i, by rwa [decode_opcode], rfl, (Op.withOperands_bytes hi).2⟩

end Sys2Proof.Machine

end

/-! # 40_execution_cycle.md: what the cycle of a running core does -/

section

namespace Sys2Proof.Machine

/-! ## Bytes in 9 bits (00_scope.md R14) -/

@[simp] theorem zext9_toNat (v : Byte) : (zext9 v).toNat = v.toNat := by
  rw [zext9, BitVec.toNat_setWidth, Nat.mod_eq_of_lt (Nat.lt_trans v.isLt (by decide))]

@[simp] theorem zext9_setWidth (v : Byte) : (zext9 v).setWidth 8 = v := by
  apply BitVec.eq_of_toNat_eq
  rw [BitVec.toNat_setWidth, zext9_toNat, Nat.mod_eq_of_lt v.isLt]

/-! ## The stages before execute -/

/-- An outcome is one next state. -/
theorem next_unique {o : Host.Outcome State Fault Refusal} {t u : State} (ht : o = .next t) (hu : o = .next u) :
    t = u :=
  Host.Outcome.next.inj (ht.symm.trans hu)

/-- What a failed decode reports (30_encoding.md R69). -/
theorem decode_error {l : Latches} {e : DecodeError} (h : decode l = .error e) :
    (e = .illegalInstruction l.ir ∧ Op.ofByte? l.ir = none) ∨ ∃ v, e = .registerBounds v ∧ 7 < v.toNat := by
  obtain ⟨ir, opa, opb⟩ := l
  obtain ⟨undefined, opaAbove, opbAbove, accepted⟩ := decodeTrichotomy ir opa opb
  by_cases hir : ir ∈ definedOpcodes
  · by_cases ha : ir ∈ regOpcodes → opa.toNat ≤ 7
    · by_cases hb : ir ∈ regRegOpcodes → opb.toNat ≤ 7
      · obtain ⟨i, hi, -⟩ := accepted hir ha hb
        rw [hi] at h
        cases h
      · obtain ⟨hrr, hb⟩ := Classical.not_imp.mp hb
        rw [opbAbove hrr (ha (regRegOpcodes_subset hrr)) (by omega)] at h
        cases h
        exact .inr ⟨opb, rfl, by omega⟩
    · obtain ⟨hr, ha⟩ := Classical.not_imp.mp ha
      rw [opaAbove hr (by omega)] at h
      cases h
      exact .inr ⟨opa, rfl, by omega⟩
  · rw [undefined hir] at h
    cases h
    have unlisted : ∀ op : Op, op.opcode ≠ ir := fun op hop => hir (hop ▸ opcode_mem_definedOpcodes op)
    exact .inl ⟨rfl, Op.ofByte?_none.mpr unlisted⟩

theorem State.mayStart_iff {s : State} : s.mayStart ↔ s.rs = .running ∧ s.cycleLimitReached = false := by
  rw [State.cycleLimitReached_eq, Bool.not_eq_false']

theorem State.cycleLimitReached_some {s : State} {n : Nat} (h : s.cfg.maxCycles = some n) :
    s.cycleLimitReached = decide (n ≤ s.cyc) := by
  simp [State.cycleLimitReached, h]

theorem State.cycleLimitReached_none {s : State} (h : s.cfg.maxCycles = none) : s.cycleLimitReached = false := by
  simp [State.cycleLimitReached, h]

theorem State.beginCycle_limit {s : State} (h : s.cycleLimitReached = true) : s.beginCycle = .error .cycleLimit := by
  simp [State.beginCycle, h]

theorem State.beginCycle_high {s : State} (hl : s.cycleLimitReached = false) (hp : 253 < s.pc.toNat) :
    s.beginCycle = .error .memoryBounds := by
  simp [State.beginCycle, hl, State.fetch_high hp]

/-- A running core that passes the cycle-limit check fetches three bytes, or PC is too high for that. -/
theorem State.presents_or_high {s : State} (hr : s.rs = .running) (hl : s.cycleLimitReached = false) :
    (∃ l : Latches, s.presents l.ir l.opa l.opb) ∨ 253 < s.pc.toNat := by
  by_cases hp : s.pc.toNat ≤ 253
  · exact .inl ⟨⟨_, _, _⟩, State.mayStart_iff.mpr ⟨hr, hl⟩, hp, rfl, rfl, rfl⟩
  · exact .inr (by omega)

/-- The faults a cycle of `s` can raise: INFO is as 60_exceptions.md R150 has it for the cause. -/
def State.mayRaise (s : State) (e : Trap) : Prop := e.cause.infoOk s.cfg e.info = true

theorem State.mayRaise_cycleLimit {s : State} (h : s.cycleLimitReached = true) : s.mayRaise .cycleLimit := by
  cases hm : s.cfg.maxCycles with
  | none => simp [State.cycleLimitReached_none hm] at h
  | some n => simp [State.mayRaise, Trap.cause, Trap.info, Cause.infoOk, hm]

theorem State.mayRaise_memoryBounds (s : State) : s.mayRaise .memoryBounds := rfl

theorem State.mayRaise_ofDecode (s : State) {l : Latches} {e : DecodeError} (hd : decode l = .error e) :
    s.mayRaise (Trap.ofDecode e) := by
  rcases decode_error hd with ⟨rfl, undefined⟩ | ⟨v, rfl, above⟩
  · simp [State.mayRaise, Trap.ofDecode, Trap.cause, Trap.info, Cause.infoOk, undefined, l.ir.isLt]
  · simp [State.mayRaise, Trap.ofDecode, Trap.cause, Trap.info, Cause.infoOk, v.isLt, Nat.succ_le_of_lt above]

theorem State.mayRaise_stackUnderflow (s : State) : s.mayRaise .stackUnderflow := rfl

theorem State.mayRaise_stackOverflow {s : State} {v : Byte} (hv : s.cfg.spInit ≤ v) :
    s.mayRaise (.stackOverflow v) := by
  have hv' : s.cfg.spInit.toNat ≤ v.toNat := hv
  simp [State.mayRaise, Trap.cause, Trap.info, Cause.infoOk, v.isLt, hv']

/-! ## The inversion of a running core's step -/

theorem step_presents {s u : State} {ir opa opb : Byte} {i : Instr} (h : s.presents ir opa opb)
    (hd : decode ⟨ir, opa, opb⟩ = .ok i) (hx : Effect s i u) : step s = .next u.completeCycle := by
  have ⟨⟨running, _⟩, _⟩ := h
  exact step_ok running (State.beginCycle_presents h hd) (exec_of_effect hx)

/-- A running core's step is a fault, which changes nothing but the outcome registers, or one instruction's effect,
counted. -/
theorem step_running {s t : State} (hr : s.rs = .running) (h : step s = .next t) :
    (∃ e, s.mayRaise e ∧ t = s.takeFault e) ∨
      ∃ (l : Latches) (i : Instr) (u : State), s.presents l.ir l.opa l.opb ∧ decode l = .ok i ∧ Effect s i u ∧
        u.rs ≠ .faulted ∧ t = u.countCycle := by
  cases hl : s.cycleLimitReached with
  | true =>
    exact .inl ⟨_, State.mayRaise_cycleLimit hl, next_unique h (step_error hr (State.beginCycle_limit hl))⟩
  | false =>
    rcases State.presents_or_high hr hl with ⟨l, hp⟩ | hp
    · cases hd : decode l with
      | error e =>
        exact .inl ⟨_, s.mayRaise_ofDecode hd, next_unique h (step_undecodable hp hd)⟩
      | ok i =>
        obtain ⟨u, hu⟩ := exec_next i s
        have eff := exec_effect hu
        obtain rfl := next_unique h (step_presents hp hd eff)
        by_cases hf : u.rs = .faulted
        · rw [State.completeCycle_faulted hf]
          rcases eff.outcome with ⟨e, rfl, ⟨rfl, -⟩ | ⟨v, rfl, hv⟩⟩ | ⟨-, rfl⟩ | ⟨-, hrs, -⟩
          · exact .inl ⟨_, s.mayRaise_stackUnderflow, rfl⟩
          · exact .inl ⟨_, State.mayRaise_stackOverflow hv, rfl⟩
          · cases hf
          · rw [hrs, hr] at hf
            cases hf
        · exact .inr ⟨l, i, u, hp, hd, eff, hf, State.completeCycle_counts hf⟩
    · exact .inl ⟨_, s.mayRaise_memoryBounds, next_unique h (step_error hr (State.beginCycle_high hl hp))⟩

/-- A stopped core's step leaves the state as it is. -/
theorem eq_of_step_stopped {s t : State} (hr : s.rs ≠ .running) (h : step s = .next t) : t = s :=
  next_unique h (step_stopped hr)

/-- Every step answers a next state (40_execution_cycle.md R88). -/
theorem step_next (s : State) : ∃ t, step s = .next t := by
  by_cases hr : s.rs = .running
  · cases hb : s.beginCycle with
    | error e => exact ⟨_, step_error hr hb⟩
    | ok i =>
      obtain ⟨u, hu⟩ := exec_next i s
      exact ⟨_, step_ok hr hb hu⟩
  · exact ⟨_, step_stopped hr⟩

/-! ## Where an instruction leaves PC -/

theorem State.pcAfter_takesJump {s : State} {i : Instr} {r : RegIdx} (h : s.takesJump i r) :
    s.pcAfter i = zext9 (if s.cfg.jumpCompat && r == 7 then s.sp - 1 else s.reg r) := by
  rcases h with rfl | ⟨rfl, he⟩ | ⟨rfl, he⟩
  · rfl
  · exact if_pos he
  · exact if_neg (by simp [he])

theorem Effect.pc {s t : State} {i : Instr} (h : Effect s i t) : t.rs = .faulted ∨ t.pc = s.pcAfter i := by
  cases h with
  | pushFault | popFault | popSpFault | retFault | callFault => exact .inl rfl
  | hlt => exact .inr rfl
  | ret => exact .inr rfl
  | call _ r hi _ =>
    right
    rcases hi with rfl | ⟨hc, hj⟩
    · rfl
    · simp [State.pcAfter_takesJump hj, hc]
  | jump _ r hc hj => simp [State.pcAfter_takesJump hj, hc]
  | notTaken _ r hn => rcases hn with ⟨rfl, he⟩ | ⟨rfl, he⟩ <;> simp [State.pcAfter, he]
  | _ => simp [State.pcAfter]

/-- PC stays, or is a byte's value, or has moved past the instruction (40_execution_cycle.md R86). -/
theorem State.pcAfter_cases (s : State) (i : Instr) :
    s.pcAfter i = s.pc ∨ (∃ v, s.pcAfter i = zext9 v) ∨ s.pcAfter i = s.pc + BitVec.ofNat 9 i.length := by
  cases i with
  | hlt => exact .inl rfl
  | call | ret | jmp => exact .inr (.inl ⟨_, rfl⟩)
  | jeq r =>
    cases he : s.fl[0]
    · exact .inr (.inr (if_neg (by simp [he])))
    · exact .inr (.inl ⟨_, if_pos he⟩)
  | jne r =>
    cases he : s.fl[0]
    · exact .inr (.inl ⟨_, if_neg (by simp [he])⟩)
    · exact .inr (.inr (if_pos he))
  | _ => exact .inr (.inr rfl)

theorem State.pcAfter_le {s : State} (i : Instr) (h : s.pc.toNat ≤ 253) : (s.pcAfter i).toNat ≤ 256 := by
  have len := i.length_le
  rcases s.pcAfter_cases i with e | ⟨v, e⟩ | e <;> rw [e]
  · omega
  · have := zext9_lt v
    omega
  · simp only [BitVec.toNat_add, BitVec.toNat_ofNat]
    omega

/-! ## The invariant (10_state.md R36) -/

theorem Trap.cause_allowed (e : Trap) : RunState.faulted.allows e.cause = true := by
  cases e <;> rfl

theorem Effect.flLegal {s t : State} {i : Instr} (h : Effect s i t) (hf : flLegal s.fl) : flLegal t.fl := by
  cases h with
  | cmp a b =>
    rcases compareFlags_cases (s.reg a) (s.reg b) with ⟨-, e⟩ | ⟨-, e⟩ | ⟨-, e⟩
    · exact .inr (.inl e)
    · exact .inr (.inr (.inl e))
    · exact .inr (.inr (.inr e))
  | _ => exact hf

/-- The outcome registers of a running core's instruction that does not fault: HLT's, or unchanged. -/
theorem Effect.outcomeOk {s t : State} {i : Instr} (h : Effect s i t) (hf : t.rs ≠ .faulted) (hr : s.rs = .running)
    (ha : s.rs.allows s.cause = true) (hi : s.cause.infoOk s.cfg s.info = true) :
    t.rs.allows t.cause = true ∧ t.cause.infoOk t.cfg t.info = true := by
  obtain ⟨cfg, -⟩ := h.cfg_cyc
  rcases h.outcome with ⟨e, rfl, -⟩ | ⟨-, rfl⟩ | ⟨-, rs, cause, info⟩
  · exact absurd rfl hf
  · have noOutcome : s.cause = .noOutcome := by simpa [hr, RunState.allows] using ha
    have info : s.info = 0 := by simpa [noOutcome, Cause.infoOk] using hi
    simp [RunState.allows, Cause.infoOk, info]
  · rw [rs, cause, info, cfg]
    exact ⟨ha, hi⟩

theorem State.countCycle_cycOk {s : State} (hl : s.cycleLimitReached = false) (hc : s.cycOk = true) :
    s.countCycle.cycOk = true := by
  cases hm : s.cfg.maxCycles with
  | none => rwa [State.countCycle_none hm]
  | some n =>
    have below : s.cyc < n := by simpa [State.cycleLimitReached_some hm] using hl
    simpa [State.countCycle_some hm, State.cycOk, hm] using below

/-- Settles O30, clause by clause over the inversion of a running core's step; a stopped core's state is kept. -/
theorem stepKeepsInvariant : Obligations.StepKeepsInvariant := by
  intro s t inv h
  by_cases hr : s.rs = .running
  · obtain ⟨cfgWf, memWf, pcLe, fl, allows, infoOk, cycOk⟩ := inv
    rcases step_running hr h with ⟨e, raised, rfl⟩ | ⟨l, i, u, ⟨start, pcLow, -⟩, -, eff, notFaulted, rfl⟩
    · exact ⟨cfgWf, memWf, pcLe, fl, e.cause_allowed, raised, cycOk⟩
    · obtain ⟨cfg, cyc⟩ := eff.cfg_cyc
      obtain ⟨allows', infoOk'⟩ := eff.outcomeOk notFaulted hr allows infoOk
      have pc : u.pc = s.pcAfter i := eff.pc.resolve_left notFaulted
      have limit : u.cycleLimitReached = false := by
        simpa only [State.cycleLimitReached, cfg, cyc] using (State.mayStart_iff.mp start).2
      have counted : u.countCycle.cycOk = true :=
        State.countCycle_cycOk limit (by simpa only [State.cycOk, cfg, cyc] using cycOk)
      refine ⟨?_, eff.memory_wf memWf, ?_, eff.flLegal fl, allows', infoOk', counted⟩
      · rwa [State.countCycle_cfg, cfg]
      · rw [State.countCycle_pc, pc]
        exact State.pcAfter_le i pcLow
  · rwa [eq_of_step_stopped hr h]

end Sys2Proof.Machine

end

/-! # 41_control_load_output.md, 42_alu.md: HLT, PRN, MUL and ADD, and instructions in either order -/

section

namespace Sys2Proof.Machine

/-! ## HLT -/

theorem State.countCycle_eq (s : State) :
    s.countCycle = { s with cyc := s.cyc + if s.cfg.maxCycles.isSome then 1 else 0 } := by
  cases h : s.cfg.maxCycles with
  | none => exact State.countCycle_none h
  | some n => exact State.countCycle_some h

/-- Settles O5: HLT's one effect, and the end of its cycle. -/
theorem hltHalts : Obligations.HltHalts := by
  refine ⟨decode_opcode .hlt, fun s => exec_of_effect .hlt, fun s opa opb h => ?_⟩
  have notFaulted : s.halt.rs ≠ .faulted := by simp
  rw [step_presents h (decode_opcode .hlt opa opb) .hlt, State.completeCycle_counts notFaulted, State.countCycle_eq]
  rfl

/-! ## PRN -/

/-- Settles O7: PRN's one effect appends to OUT and moves PC. -/
theorem prnAppendsValue : Obligations.PrnAppendsValue :=
  ⟨decodesR_of_withOperands (op := .prn) fun _ _ => rfl, fun r _ => ⟨_, exec_of_effect (.prn r), rfl,
    advancePast_r_pc _, fun _ _ => rfl, fun _ => rfl, rfl, rfl, rfl, rfl, rfl, rfl⟩⟩

/-! ## MUL and ADD -/

theorem State.advancePast_rr (s : State) : s.advancePast .rr = s.setPc (s.pc + 3) :=
  congrArg s.setPc (advancePast_rr_pc s)

/-- What a state is after one register and PC have been written. -/
theorem State.setReg_setPc_frame {s t : State} {r : RegIdx} {v : Byte} {p : Word9} (h : t = (s.setReg r v).setPc p) :
    t.reg r = v ∧ t.pc = p ∧ s.sameRegsBut [r] t ∧ s.sameMemory t ∧ t.fl = s.fl ∧ t.out = s.out ∧ s.sameControl t := by
  subst h
  have regs : s.sameRegsBut [r] ((s.setReg r v).setPc p) := fun q hq => by simp [List.ne_of_not_mem_cons hq]
  exact ⟨by simp, rfl, regs, fun _ => rfl, rfl, rfl, rfl, rfl, rfl, rfl, rfl⟩

/-- Settles O8: MUL's one effect writes the product as a byte. -/
theorem mulKeepsLowByte : Obligations.MulKeepsLowByte := by
  refine ⟨decodesRR_of_withOperands (op := .mul) fun _ _ => rfl, fun a b s => ⟨_, exec_of_effect (.mul a b), ?_⟩⟩
  obtain ⟨value, frame⟩ := State.setReg_setPc_frame (State.advancePast_rr (s.setReg a _))
  exact ⟨by rw [value, BitVec.toNat_ofNat], frame⟩

/-- Settles O9: ADD's one effect writes the sum as a byte. -/
theorem addKeepsLowByte : Obligations.AddKeepsLowByte := by
  refine ⟨decodesRR_of_withOperands (op := .add) fun _ _ => rfl, fun a b s => ⟨_, exec_of_effect (.add a b), ?_⟩⟩
  obtain ⟨value, frame⟩ := State.setReg_setPc_frame (State.advancePast_rr (s.setReg a _))
  exact ⟨by rw [value, BitVec.toNat_ofNat], frame⟩

/-! ## In either order (42_alu.md R116) -/

/-- An LDI, ADD or MUL puts one value in one register; the value does not change with another register that it does not
read, nor with PC. -/
theorem exec_ldi_or_alu {j : Instr} {a c d : RegIdx} {v : Byte}
    (h : j = .ldi c v ∨ (d ≠ a ∧ (j = .add c d ∨ j = .mul c d))) (hca : c ≠ a) :
    ∃ g : State → Byte, (∀ s, exec j s = .next ((s.setReg c (g s)).advancePast .rr)) ∧
      ∀ s w f, g ((s.setReg a w).advancePast f) = g s := by
  rcases h with rfl | ⟨hda, hj⟩
  · exact ⟨fun _ => v, fun s => exec_of_effect (.ldi c v), fun _ _ _ => rfl⟩
  · obtain ⟨f, hf⟩ := exec_add_or_mul hj
    exact ⟨fun s => f (s.reg c) (s.reg d), hf, fun s w _ => by simp [hca, hda]⟩

/-- Two writes to different registers, each followed by an advance, give one state in either order. -/
theorem State.setReg_advancePast_comm (s : State) {a c : RegIdx} (h : c ≠ a) (v w : Byte) (f : Format) :
    (((s.setReg a v).advancePast f).setReg c w).advancePast f =
      (((s.setReg c w).advancePast f).setReg a v).advancePast f :=
  congrArg (fun t => (t.advancePast f).advancePast f) (s.setReg_comm h v w)

/-- Settles O43: each of the two writes a value the other leaves as it is. -/
theorem aluIndependence : Obligations.AluIndependence := by
  intro s t u a b c d v i j hi hj hca hcb h1 h2
  obtain ⟨f, execI⟩ := exec_add_or_mul hi
  obtain ⟨g, execJ, gKept⟩ := exec_ldi_or_alu hj hca
  obtain rfl := next_unique (execI s) h1
  obtain rfl := next_unique (execJ _) h2
  refine ⟨_, execJ s, ?_⟩
  rw [execI, gKept, State.setReg_advancePast_comm s hca]
  simp [Ne.symm hca, Ne.symm hcb]

end Sys2Proof.Machine

end

/-! # 43_stack_subroutine.md, 44_branch.md: the stack instructions, the unconditional jump, and jumps that push -/

section

namespace Sys2Proof.Machine

/-! ## A byte pushed, and PC set -/

/-- What PUSH, CALL and a taken jump under JUMP_COMPAT leave: SP one lower, a byte there, and PC. -/
def State.pushByte (s : State) (v : Byte) (p : Word9) : State :=
  ((s.setReg 7 (s.sp - 1)).memWrite (s.sp - 1) v).setPc p

theorem State.pushed_eq (s : State) (r : RegIdx) :
    s.pushed r = s.pushByte (if r = 7 then s.sp - 1 else s.reg r) (s.pc + 2) :=
  State.advancePast_r _

theorem State.called_eq (s : State) (r : RegIdx) :
    s.called r = s.pushByte s.returnAddress (zext9 (if r = 7 then s.sp - 1 else s.reg r)) := rfl

theorem State.pushByte_frame (s : State) (v : Byte) (p : Word9) :
    (s.pushByte v p).sp = s.sp - 1 ∧ (s.pushByte v p).memRead (s.sp - 1) = v ∧ (s.pushByte v p).pc = p ∧
      s.sameRegsBut [7] (s.pushByte v p) ∧ s.sameMemoryBut (s.sp - 1) (s.pushByte v p) ∧
      (s.pushByte v p).fl = s.fl ∧ (s.pushByte v p).out = s.out ∧ s.sameControl (s.pushByte v p) := by
  have regs : s.sameRegsBut [7] (s.pushByte v p) := fun q hq => by
    simp [State.pushByte, List.ne_of_not_mem_cons hq]
  have memory : s.sameMemoryBut (s.sp - 1) (s.pushByte v p) := fun a ha => by
    rw [State.pushByte, State.setPc_memRead, State.memWrite_memRead, if_neg ha, State.setReg_memRead]
  exact ⟨by simp [State.pushByte], by simp [State.pushByte], rfl, regs, memory, rfl, rfl, rfl, rfl, rfl, rfl, rfl⟩

/-- The byte CALL stores, wherever a CALL can be fetched (20_memory.md R42). -/
theorem State.returnAddress_toNat {s : State} (h : s.pc.toNat ≤ 253) : s.returnAddress.toNat = s.pc.toNat + 2 := by
  unfold State.returnAddress
  bv_omega

/-- CALL's frame, with the return address as a number. -/
theorem State.called_frame (s : State) (r : RegIdx) :
    (s.called r).sp = s.sp - 1 ∧
      (s.pc.toNat ≤ 253 → ((s.called r).memRead (s.sp - 1)).toNat = s.pc.toNat + 2) ∧
      (s.called r).pc = zext9 (if r = 7 then s.sp - 1 else s.reg r) ∧
      s.sameRegsBut [7] (s.called r) ∧ s.sameMemoryBut (s.sp - 1) (s.called r) ∧ (s.called r).fl = s.fl ∧
      (s.called r).out = s.out ∧ s.sameControl (s.called r) := by
  rw [State.called_eq]
  obtain ⟨sp, stored, frame⟩ := s.pushByte_frame s.returnAddress (zext9 (if r = 7 then s.sp - 1 else s.reg r))
  exact ⟨sp, fun h => by rw [stored, State.returnAddress_toNat h], frame⟩

/-- Settles O11: PUSH's two effects, by SP. -/
theorem pushStoresAtNewTop : Obligations.PushStoresAtNewTop := by
  refine ⟨decodesR_of_withOperands (op := .push) fun _ _ => rfl, fun r s => ⟨fun h => ?_, fun h => ?_⟩⟩
  · exact exec_of_effect (.pushFault r h)
  · rw [exec_of_effect (.push r h), State.pushed_eq]
    exact ⟨_, rfl, s.pushByte_frame _ _⟩

/-- Settles O13: CALL's two effects, by SP. -/
theorem callPushesReturnAddress : Obligations.CallPushesReturnAddress := by
  refine ⟨decodesR_of_withOperands (op := .call) fun _ _ => rfl, fun r s => ⟨fun h => ?_, fun h => ?_⟩⟩
  · exact exec_of_effect (.callFault _ r (.inl rfl) h)
  · exact ⟨_, exec_of_effect (.call _ r (.inl rfl) h), s.called_frame r⟩

/-- Settles O18: a taken jump has CALL's effects under JUMP_COMPAT. -/
theorem compatJumpPushes : Obligations.CompatJumpPushes := by
  refine fun i r s hc hj => ⟨fun h => ?_, fun h => ?_⟩
  · exact exec_of_effect (.callFault i r (.inr ⟨hc, hj⟩) h)
  · exact ⟨_, exec_of_effect (.call i r (.inr ⟨hc, hj⟩) h), s.called_frame r⟩

/-- Settles O15: JMP is always taken. -/
theorem jmpSetsPc : Obligations.JmpSetsPc := by
  refine ⟨decodesR_of_withOperands (op := .jmp) fun _ _ => rfl, fun r s => ⟨fun hc => ?_, fun hc => ?_⟩⟩
  · rw [exec_takesJump (.inl rfl), State.jump_compat r hc]
    rfl
  · exact ⟨_, exec_of_effect (.jump _ r hc (.inl rfl)), s.setPc_frame _⟩

/-! ## A byte popped, and PC set -/

/-- Settles O12: POP's four effects, by SP, the register and, for R7, the loaded byte. -/
theorem popLoadsTop : Obligations.PopLoadsTop := by
  refine ⟨decodesR_of_withOperands (op := .pop) fun _ _ => rfl, fun r s =>
    ⟨fun h => ?_, fun h hr => ?_, fun h hr hv => ?_, fun h hr hv => ?_⟩⟩
  · exact exec_of_effect (.popFault r h)
  · rw [exec_of_effect (.pop r hr h), State.advancePast_r]
    obtain ⟨sp, pc, regs, frame⟩ := State.setReg_setPc_frame (s := s.setReg r (s.memRead s.sp)) rfl
    refine ⟨_, rfl, by simp [hr], sp, pc, fun q hq => ?_, frame⟩
    obtain ⟨hqr, hq7⟩ : q ≠ r ∧ q ≠ 7 := by simpa using hq
    rw [regs q (by simpa using hq7), State.setReg_reg, if_neg hqr]
  · subst hr
    exact exec_of_effect (.popSpFault h hv)
  · subst hr
    rw [exec_of_effect (.popSp h hv), State.advancePast_r]
    obtain ⟨sp, pc, regs, frame⟩ := State.setReg_setPc_frame (s := s.setReg 7 (s.memRead s.sp)) rfl
    refine ⟨_, rfl, sp, pc, fun q hq => ?_, frame⟩
    rw [regs q hq, State.setReg_reg, if_neg (List.ne_of_not_mem_cons hq)]

/-- Settles O14: RET's two effects, by SP. -/
theorem retPopsIntoPc : Obligations.RetPopsIntoPc := by
  refine ⟨decode_opcode .ret, fun s => ⟨fun h => ?_, fun h => ?_⟩⟩
  · exact exec_of_effect (.retFault h)
  · obtain ⟨sp, pc, frame⟩ := State.setReg_setPc_frame (s := s) rfl
    exact ⟨_, exec_of_effect (.ret h), pc, sp, frame⟩

/-! ## There and back (43_stack_subroutine.md R126) -/

/-- After a push from SP in 1..SP_INIT the stack has room for a pop. -/
theorem sp_sub_one_lt {sp limit : Byte} (h : sp ≠ 0) (hl : sp ≤ limit) : sp - 1 < limit := by
  bv_omega

theorem sp_sub_one_add_one (sp : Byte) : sp - 1 + 1 = sp := by
  bv_omega

/-- Settles O41, from the statements about PUSH and POP. -/
theorem pushPopRoundTrip : Obligations.PushPopRoundTrip := by
  intro s p q hp hq hpq hz hl
  obtain ⟨t, ht, tsp, stored, tpc, tregs, -, -, -, -, -, -, -, tcfg⟩ := (pushStoresAtNewTop.2 p s).2 hz
  have room : t.sp < t.cfg.spInit := by
    rw [tsp, tcfg]
    exact sp_sub_one_lt hz hl
  obtain ⟨u, hu, loaded, usp, upc, uregs, -⟩ := (popLoadsTop.2 q t).2.1 room hq
  have sp : u.sp = s.sp := by rw [usp, tsp, sp_sub_one_add_one]
  refine ⟨t, u, ht, hu, ?_, sp, ?_, fun x hx => ?_⟩
  · rw [loaded, tsp, stored, if_neg hp]
  · rw [upc, tpc, BitVec.add_assoc]
    rfl
  · by_cases hx7 : x = 7
    · rwa [hx7]
    · have notPopped : x ∉ [q, 7] := by simpa [hx7] using hx
      have notPushed : x ∉ [(7 : RegIdx)] := by simpa using hx7
      rw [uregs x notPopped, tregs x notPushed]

/-- Settles O42, from the statements about CALL and RET. -/
theorem callRetRoundTrip : Obligations.CallRetRoundTrip := by
  intro s t u r hz hl hp ht ucfg usp ustored
  obtain ⟨t', ht', tsp, stored, -, -, -, -, -, -, -, -, -, tcfg⟩ := (callPushesReturnAddress.2 r s).2 hz
  obtain rfl := next_unique ht' ht
  have room : u.sp < u.cfg.spInit := by
    rw [usp, tsp, ucfg, tcfg]
    exact sp_sub_one_lt hz hl
  obtain ⟨v, hv, vpc, vsp, -⟩ := (retPopsIntoPc.2 u).2 room
  refine ⟨v, hv, ?_, ?_⟩
  · have returned := stored hp
    apply BitVec.eq_of_toNat_eq
    rw [vpc, zext9_toNat, ustored, tsp, returned, BitVec.toNat_add, Nat.mod_eq_of_lt (by simp; omega)]
    rfl
  · rw [vsp, usp, tsp, sp_sub_one_add_one]

end Sys2Proof.Machine

end

/-! # 60_exceptions.md, 40_execution_cycle.md: which cycles fault, and what a cycle leaves -/

section

namespace Sys2Proof.Machine

/-! ## The cycle as a whole -/

/-- Settles O19: the end of the cycle counts what execute answered. -/
theorem stepRunsDecoded : Obligations.StepRunsDecoded := by
  intro s t ir opa opb i hp hd hx
  have eff := exec_effect hx
  obtain ⟨cfg, -⟩ := eff.cfg_cyc
  rw [step_presents hp hd eff]
  by_cases hf : t.rs = .faulted
  · rw [State.completeCycle_faulted hf, if_pos (.inl hf)]
  · rw [State.completeCycle_counts hf]
    cases hm : s.cfg.maxCycles with
    | none => rw [State.countCycle_none (cfg ▸ hm), if_pos (.inr rfl)]
    | some n => rw [State.countCycle_some (cfg ▸ hm), if_neg (by simp [hf])]

/-- The run state at the end of a cycle is execute's. -/
@[simp] theorem State.completeCycle_rs (s : State) : s.completeCycle.rs = s.rs := by
  rw [State.completeCycle_eq]

/-! ## Faults in execute (43_stack_subroutine.md R121) -/

/-- An instruction that faults leaves the fault's state, and the cycle does not count. -/
theorem step_execFault {s : State} {ir opa opb : Byte} {i : Instr} {e : Trap} (h : s.presents ir opa opb)
    (hd : decode ⟨ir, opa, opb⟩ = .ok i) (hx : Effect s i (s.takeFault e)) : step s = .next (s.takeFault e) := by
  rw [step_presents h hd hx, State.completeCycle_faulted rfl]

/-- The same for an opcode of format R, whatever register its operand byte names. -/
theorem step_execFault_of_decodesR {s : State} {ir opa opb : Byte} {mk : RegIdx → Instr} {e : Trap}
    (h : s.presents ir opa opb) (hd : decodesR ir mk) (ha : opa.toNat ≤ 7)
    (hx : ∀ r, Effect s (mk r) (s.takeFault e)) : step s = .next (s.takeFault e) := by
  obtain ⟨r, rfl⟩ := exists_regByte (b := opa) (by omega)
  exact step_execFault h ((hd _ opb).1 r (regByte_toNat r)) (hx r)

/-- PUSH, CALL and, under JUMP_COMPAT, a taken jump underflow at SP = 0. -/
theorem step_underflow {s : State} {ir opa opb : Byte} (h : s.presents ir opa opb)
    (hir : ir = 0x45 ∨ ir = 0x50 ∨ (s.cfg.jumpCompat = true ∧ (ir = 0x54 ∨ (ir = 0x55 ∧ s.fl[0] = true) ∨
      (ir = 0x56 ∧ s.fl[0] = false))))
    (ha : opa.toNat ≤ 7) (hz : s.sp = 0) : step s = .next (s.takeFault .stackUnderflow) := by
  rcases hir with rfl | rfl | ⟨hc, rfl | ⟨rfl, he⟩ | ⟨rfl, he⟩⟩
  · exact step_execFault_of_decodesR h pushStoresAtNewTop.1 ha fun r => .pushFault r hz
  · exact step_execFault_of_decodesR h callPushesReturnAddress.1 ha fun r => .callFault _ r (.inl rfl) hz
  · exact step_execFault_of_decodesR h jmpSetsPc.1 ha fun r => .callFault _ r (.inr ⟨hc, .inl rfl⟩) hz
  · exact step_execFault_of_decodesR h jeqTestsEqual.1 ha fun r =>
      .callFault _ r (.inr ⟨hc, .inr (.inl ⟨rfl, he⟩)⟩) hz
  · exact step_execFault_of_decodesR h jneTestsNotEqual.1 ha fun r =>
      .callFault _ r (.inr ⟨hc, .inr (.inr ⟨rfl, he⟩)⟩) hz

/-- RET and POP overflow at SP >= SP_INIT. -/
theorem step_overflow {s : State} {ir opa opb : Byte} (h : s.presents ir opa opb)
    (hir : ir = 0x11 ∨ (ir = 0x46 ∧ opa.toNat ≤ 7)) (hl : s.cfg.spInit ≤ s.sp) :
    step s = .next (s.takeFault (.stackOverflow s.sp)) := by
  rcases hir with rfl | ⟨rfl, ha⟩
  · exact step_execFault h (retPopsIntoPc.1 opa opb) (.retFault hl)
  · exact step_execFault_of_decodesR h popLoadsTop.1 ha fun r => .popFault r hl

/-- Settles O21, one lemma for each stage. -/
theorem faultPriority : Obligations.FaultPriority := by
  refine fun s hr => ⟨fun n hm hl => ?_, fun hs hp => ?_, fun ir opa opb h =>
    ⟨fun hir => ?_, fun hir ha => ?_, fun hir ha hb => ?_, fun hir ha hz => ?_, fun hir hl => ?_, fun hir ha hl hv => ?_⟩⟩
  · have limit : s.cycleLimitReached = true := by simpa [State.cycleLimitReached_some hm] using hl
    exact step_error hr (State.beginCycle_limit limit)
  · exact step_error hr (State.beginCycle_high (State.mayStart_iff.mp hs).2 hp)
  · exact illegalOpcodeFaults s ir opa opb h hir
  · exact step_undecodable h (decode_opa_above opb hir ha)
  · exact step_undecodable h (decode_opb_above hir ha hb)
  · exact step_underflow h hir ha hz
  · exact step_overflow h hir hl
  · subst hir ha
    exact step_execFault h ((popLoadsTop.1 7 opb).1 7 rfl) (.popSpFault hl hv)

/-! ## No other fault (60_exceptions.md R157) -/

theorem State.stackRoom_takesJump {s : State} {i : Instr} {r : RegIdx} (hc : s.cfg.jumpCompat = true)
    (h : s.takesJump i r) (room : s.stackRoom i = true) : s.sp ≠ 0 := by
  rcases h with rfl | ⟨rfl, he⟩ | ⟨rfl, he⟩
  · simpa [State.stackRoom, hc] using room
  · simpa [State.stackRoom, hc, he] using room
  · simpa [State.stackRoom, hc, he] using room

/-- A running core's instruction with room on the stack does not fault. -/
theorem Effect.not_faulted_of_stackRoom {s t : State} {i : Instr} (h : Effect s i t) (hr : s.rs = .running)
    (room : s.stackRoom i = true) : t.rs ≠ .faulted := by
  cases h with
  | pushFault r hz => exact absurd hz (by simpa [State.stackRoom] using room)
  | callFault _ r hi hz =>
    rcases hi with rfl | ⟨hc, hj⟩
    · exact absurd hz (by simpa [State.stackRoom] using room)
    · exact absurd hz (State.stackRoom_takesJump hc hj room)
  | popFault r hl =>
    obtain ⟨below, -⟩ : s.sp < s.cfg.spInit ∧ _ := by simpa [State.stackRoom] using room
    exact absurd hl (BitVec.not_le.mpr below)
  | popSpFault _ hv =>
    obtain ⟨-, below⟩ : s.sp < s.cfg.spInit ∧ s.memRead s.sp < s.cfg.spInit := by simpa [State.stackRoom] using room
    exact absurd hv (BitVec.not_le.mpr below)
  | retFault hl => exact absurd hl (BitVec.not_le.mpr (by simpa [State.stackRoom] using room))
  | _ => simp [hr]

/-- Settles O22: execute does not fault, so it leaves HLT's outcome or the run state as it was. -/
theorem noOtherFault : Obligations.NoOtherFault := by
  intro s ir opa opb i hp hd room
  have ⟨⟨running, _⟩, _⟩ := hp
  obtain ⟨u, hu⟩ := exec_next i s
  have eff := exec_effect hu
  refine ⟨_, step_presents hp hd eff, ?_⟩
  have notFaulted := eff.not_faulted_of_stackRoom running room
  rw [State.completeCycle_rs]
  rcases eff.outcome with ⟨e, rfl, -⟩ | ⟨rfl, rfl⟩ | ⟨hi, hrs, -⟩
  · exact absurd rfl notFaulted
  · rfl
  · rw [if_neg hi, hrs, running]

/-! ## Precise faults (60_exceptions.md R160) -/

theorem Trap.cause_code_range (e : Trap) : 2 ≤ e.cause.code.toNat ∧ e.cause.code.toNat ≤ 8 := by
  cases e <;> simp [Trap.cause, Cause.code]

/-- Settles O23: a running core's step that faulted took a fault. -/
theorem faultsArePrecise : Obligations.FaultsArePrecise := by
  intro s t hr h hf
  rcases step_running hr h with ⟨e, -, rfl⟩ | ⟨l, i, u, -, -, -, notFaulted, rfl⟩
  · exact ⟨rfl, e.cause_code_range⟩
  · exact absurd hf notFaulted

/-! ## PC -/

/-- Settles O24: the end of the cycle leaves PC where the instruction's effect put it. -/
theorem pcLaw : Obligations.PcLaw := by
  intro s t ir opa opb i hp hd h hf
  obtain ⟨u, hu⟩ := exec_next i s
  have eff := exec_effect hu
  obtain rfl := next_unique h (step_presents hp hd eff)
  rw [State.completeCycle_rs] at hf
  rw [State.completeCycle_eq]
  exact eff.pc.resolve_left hf

/-- The opcodes of three-byte instructions (30_encoding.md R61, R63). -/
theorem length_eq_three_iff (i : Instr) :
    i.length = 3 ↔ i.op.opcode ∈ ([0x82, 0xA2, 0xA0, 0xA7] : List Byte) := by
  cases i <;> simp [Instr.length, Instr.format, Format.operandCount, Instr.op, Op.opcode]

theorem State.pcAfter_of_length_three {s : State} {i : Instr} (h : i.length = 3) : s.pcAfter i = s.pc + 3 := by
  cases i with
  | ldi | mul | add | cmp => rfl
  | _ => cases h

/-- PC = 256 is reached from 253 by a three-byte instruction only (10_state.md R26). -/
theorem State.pcAfter_eq_256 {s : State} {i : Instr} (hp : s.pc.toNat ≤ 253) (h : s.pcAfter i = 256) :
    s.pc = 253 ∧ i.length = 3 := by
  have len := i.length_le
  have toNat : (s.pcAfter i).toNat = 256 := congrArg BitVec.toNat h
  rcases s.pcAfter_cases i with e | ⟨v, e⟩ | e <;> rw [e] at toNat
  · omega
  · have := zext9_lt v
    omega
  · rw [BitVec.toNat_add, BitVec.toNat_ofNat] at toNat
    have pc : s.pc.toNat = 253 ∧ i.length = 3 := by omega
    exact ⟨BitVec.eq_of_toNat_eq pc.1, pc.2⟩

/-- Settles O25: a stopped core and a fault leave PC, and an instruction leaves it as O24 has it. -/
theorem pcReaches256OnlyFrom253 : Obligations.PcReaches256OnlyFrom253 := by
  intro s t hp h
  have stays (e : t.pc = s.pc) : t.pc.toNat ≤ 256 ∧ t.pc ≠ 256 := by
    rw [e]
    refine ⟨by omega, fun e256 => ?_⟩
    rw [e256] at hp
    exact absurd hp (by decide)
  by_cases hr : s.rs = .running
  · rcases step_running hr h with ⟨e, -, rfl⟩ | ⟨l, i, u, presented, hd, eff, notFaulted, rfl⟩
    · obtain ⟨le, ne⟩ := stays rfl
      exact ⟨le, fun h256 => absurd h256 ne, fun _ _ _ notFaulted => absurd rfl notFaulted⟩
    · obtain ⟨-, pcLow, ir, -, -⟩ := presented
      have pc : u.countCycle.pc = s.pcAfter i := eff.pc.resolve_left notFaulted
      have opcode : s.pc = 253 → s.memRead 253 = i.op.opcode := fun h253 => by
        rw [decode_opcode_byte hd, ← ir, h253]
        rfl
      rw [pc]
      refine ⟨State.pcAfter_le i pcLow, fun h256 => ?_, fun _ h253 long _ => ?_⟩
      · obtain ⟨h253, long⟩ := State.pcAfter_eq_256 pcLow h256
        exact ⟨h253, opcode h253 ▸ (length_eq_three_iff i).mp long⟩
      · rw [opcode h253] at long
        rw [State.pcAfter_of_length_three ((length_eq_three_iff i).mpr long), h253]
        rfl
  · obtain rfl := eq_of_step_stopped hr h
    obtain ⟨le, ne⟩ := stays rfl
    exact ⟨le, fun h256 => absurd h256 ne, fun running => absurd running hr⟩

end Sys2Proof.Machine

end

/-! # 10_state.md, 40_execution_cycle.md: the cycle guard, and what holds along every run -/

section

namespace Sys2Proof.Machine

/-! ## The cycle guard (40_execution_cycle.md R81) -/

/-- What CAUSE can be after a running core's step: that of a fault the step can raise, HLT's, or as before. -/
theorem step_cause {s t : State} (hr : s.rs = .running) (h : step s = .next t) :
    t.cause.infoOk s.cfg t.info = true ∨ t.cause = .halt ∨ t.cause = s.cause := by
  rcases step_running hr h with ⟨e, infoOk, rfl⟩ | ⟨l, i, u, -, -, eff, notFaulted, rfl⟩
  · exact .inl infoOk
  · rcases eff.outcome with ⟨e, rfl, -⟩ | ⟨-, rfl⟩ | ⟨-, -, cause, -⟩
    · exact absurd rfl notFaulted
    · exact .inr (.inl rfl)
    · exact .inr (.inr cause)

/-- Settles O26: the two outcomes of a running core's step, with and without the guard. -/
theorem cycleGuardCounts : Obligations.CycleGuardCounts := by
  intro s t hr h
  refine ⟨fun hm => ⟨?_, fun before after => ?_⟩, fun n hm => ⟨fun hl => ?_, fun hl => ?_⟩⟩
  · rcases step_running hr h with ⟨e, -, rfl⟩ | ⟨l, i, u, -, -, eff, -, rfl⟩
    · rfl
    · obtain ⟨cfg, cyc⟩ := eff.cfg_cyc
      rw [State.countCycle_none (cfg ▸ hm), cyc]
  · rcases step_cause hr h with infoOk | halt | cause
    · simp [after, Cause.infoOk, hm] at infoOk
    · simp [after] at halt
    · exact before (cause.symm.trans after)
  · have limit : s.cycleLimitReached = true := by simpa [State.cycleLimitReached_some hm] using hl
    exact next_unique h (step_error hr (State.beginCycle_limit limit))
  · rcases step_running hr h with ⟨e, -, rfl⟩ | ⟨l, i, u, -, -, eff, notFaulted, rfl⟩
    · exact ⟨fun _ => rfl, fun notFaulted => absurd rfl notFaulted⟩
    · obtain ⟨cfg, cyc⟩ := eff.cfg_cyc
      have counted : u.countCycle.cyc = s.cyc + 1 := by simp [cfg, cyc, hm]
      exact ⟨fun faulted => absurd faulted notFaulted, fun _ => counted⟩

/-! ## Runs of a stopped core, and of any core -/

theorem State.run_stopped {s : State} (hr : s.rs ≠ .running) (k : Nat) : State.run k s = .next s := by
  induction k with
  | zero => rfl
  | succ k ih => rw [State.run_succ k (step_stopped hr), ih]

/-- Settles O28: the induction is `State.run_stopped`'s. -/
theorem stoppedCoreNeverMoves : Obligations.StoppedCoreNeverMoves :=
  fun k _ hr => State.run_stopped hr k

/-- Settles O29, by induction on the number of steps. -/
theorem stepAlwaysAnswersNext : Obligations.StepAlwaysAnswersNext := by
  intro k
  induction k with
  | zero => exact fun s => ⟨s, rfl⟩
  | succ k ih =>
    intro s
    obtain ⟨t, ht⟩ := step_next s
    obtain ⟨u, hu⟩ := ih t
    exact ⟨u, (State.run_succ k ht).trans hu⟩

/-- What every step keeps holds at the end of a run. -/
theorem State.run_keeps {P : State → Prop} (keeps : ∀ s t, P s → step s = .next t → P t) (k : Nat) {s t : State}
    (hs : P s) (h : State.run k s = .next t) : P t := by
  induction k generalizing s with
  | zero =>
    obtain rfl : s = t := Host.Outcome.next.inj h
    exact hs
  | succ k ih =>
    obtain ⟨u, hu⟩ := step_next s
    rw [State.run_succ k hu] at h
    exact ih (keeps s u hs hu) h

/-! ## The guard ends every run (00_scope.md R11) -/

/-- A step keeps the constants. -/
theorem step_cfg {s t : State} (h : step s = .next t) : t.cfg = s.cfg := by
  by_cases hr : s.rs = .running
  · rcases step_running hr h with ⟨e, -, rfl⟩ | ⟨l, i, u, -, -, eff, -, rfl⟩
    · rfl
    · exact eff.cfg_cyc.1
  · obtain rfl := eq_of_step_stopped hr h
    rfl

/-- Settles O33: a step keeps the constants, and so does a run. -/
theorem constantsNeverChange : Obligations.ConstantsNeverChange :=
  fun k s _ h => State.run_keeps (P := fun t => t.cfg = s.cfg) (fun _ _ kept h => (step_cfg h).trans kept) k rfl h

/-- Settles O27, by induction on the number of steps: each one stops the core or counts. -/
theorem cycleGuardStopsEveryRun : Obligations.CycleGuardStopsEveryRun := by
  intro n k
  induction k with
  | zero => exact fun s _ hc hk => absurd hk (by omega)
  | succ k ih =>
    intro s hm hc hk
    by_cases hr : s.rs = .running
    · obtain ⟨t, ht⟩ := step_next s
      obtain ⟨reached, notReached⟩ := (cycleGuardCounts s t hr ht).2 n hm
      rw [State.run_succ k ht]
      by_cases hl : n ≤ s.cyc
      · obtain rfl := reached hl
        exact ⟨_, State.run_stopped (by simp) k, by simp, hc⟩
      · obtain ⟨faulted, counted⟩ := notReached (by omega)
        by_cases hf : t.rs = .faulted
        · have stopped : t.rs ≠ .running := by simp [hf]
          exact ⟨t, State.run_stopped stopped k, stopped, by rw [faulted hf]; exact hc⟩
        · have cyc := counted hf
          exact ih t ((congrArg Config.maxCycles (step_cfg ht)).trans hm) (by omega) (by omega)
    · exact ⟨s, State.run_stopped hr (k + 1), hr, hc⟩

/-! ## OUT (10_state.md R32) -/

/-- OUT as an instruction leaves it. -/
theorem Effect.out {s t : State} {i : Instr} (h : Effect s i t) :
    t.out = s.out ∨ ∃ r, i = .prn r ∧ t.out = s.out ++ [s.reg r] := by
  cases h with
  | prn r => exact .inr ⟨r, rfl, rfl⟩
  | _ => exact .inl rfl

/-- The bytes a PRN was decoded from. -/
theorem decode_eq_prn {l : Latches} {r : RegIdx} (h : decode l = .ok (.prn r)) : l.ir = 0x47 ∧ l.opa = regByte r := by
  obtain ⟨ir, opa, opb⟩ := l
  have bytes : [ir, opa] = [0x47, regByte r] := decode_iff_encode.mp h
  cases bytes
  exact ⟨rfl, rfl⟩

/-- Settles O37: only a PRN's effect writes OUT, and its bytes are at PC. -/
theorem outWrittenOnlyByPrn : Obligations.OutWrittenOnlyByPrn := by
  intro s t h
  by_cases hr : s.rs = .running
  · rcases step_running hr h with ⟨e, -, rfl⟩ | ⟨l, i, u, presented, hd, eff, -, rfl⟩
    · exact .inl rfl
    · rcases eff.out with out | ⟨r, rfl, out⟩
      · exact .inl out
      · obtain ⟨hir, hopa⟩ := decode_eq_prn hd
        exact .inr ⟨r, l.opb, hopa ▸ hir ▸ presented, out⟩
  · obtain rfl := eq_of_step_stopped hr h
    exact .inl rfl

theorem step_out_prefix {s t : State} (h : step s = .next t) : s.out <+: t.out := by
  rcases outWrittenOnlyByPrn s t h with out | ⟨r, opb, -, out⟩ <;> rw [out]
  exact List.prefix_append _ _

/-! ## Reachable states (10_state.md R36) -/

/-- Settles O31: the reset values, clause by clause. -/
theorem resetMeetsInvariant : Obligations.ResetMeetsInvariant := by
  have reset (cfg : Config) (h : cfg.wf) : (State.resetWith cfg).Inv := by
    refine ⟨h, rfl, by simp, .inl rfl, rfl, rfl, ?_⟩
    unfold State.cycOk
    split <;> simp
  exact ⟨reset _ (by decide), reset⟩

theorem State.load_of_le {s : State} {image : List Byte} (h : image.length ≤ 256) :
    s.load image = some { s with mem := Memory.writeAll s.mem 0 image } := if_pos h

theorem State.load_of_gt {s : State} {image : List Byte} (h : 256 < image.length) : s.load image = none :=
  if_neg (by omega)

/-- A load that is not refused writes memory only (70_reset_and_hazards.md R183). -/
theorem State.load_some {s t : State} {image : List Byte} (h : s.load image = some t) :
    image.length ≤ 256 ∧ t = { s with mem := Memory.writeAll s.mem 0 image } := by
  by_cases hl : image.length ≤ 256
  · rw [State.load_of_le hl] at h
    exact ⟨hl, (Option.some.inj h).symm⟩
  · rw [State.load_of_gt (by omega)] at h
    cases h

theorem State.load_inv {s t : State} {image : List Byte} (h : s.load image = some t) (inv : s.Inv) : t.Inv := by
  obtain ⟨hl, rfl⟩ := State.load_some h
  obtain ⟨cfgWf, memWf, rest⟩ := inv
  exact ⟨cfgWf, Memory.wf_writeAll image s.mem 0 (by omega) memWf, rest⟩

/-- Settles O32: the invariant holds at reset and is kept by the load and by every step, which also extends OUT. -/
theorem reachableStatesMeetInvariant : Obligations.ReachableStatesMeetInvariant := by
  intro cfg image t u j k hcfg hload hrun
  have loaded : t.Inv := State.load_inv hload (resetMeetsInvariant.2 cfg hcfg)
  obtain ⟨v, hv⟩ := stepAlwaysAnswersNext k u
  refine ⟨State.run_keeps stepKeepsInvariant j loaded hrun, v, hv, ?_, fun hr => ?_⟩
  · exact State.run_keeps (P := fun w => u.out <+: w.out) (fun _ _ kept h => kept.trans (step_out_prefix h)) k
      (List.prefix_refl _) hv
  · exact next_unique hv (State.run_stopped hr k)

end Sys2Proof.Machine

end

/-! # 10_state.md, 20_memory.md: what writes memory, registers and CAUSE, and what nothing reads -/

section

namespace Sys2Proof.Machine

/-- Settles O35: only the effects that push change a byte. -/
theorem memoryWrittenOnlyByPushes : Obligations.MemoryWrittenOnlyByPushes := by
  intro i s t a hx changed
  cases exec_effect hx with
  | push r hz =>
    rw [State.pushed_eq] at changed
    obtain ⟨-, -, -, -, memory, -⟩ := s.pushByte_frame (if r = 7 then s.sp - 1 else s.reg r) (s.pc + 2)
    exact ⟨not_imp_comm.mp (memory a) changed, hz, r, .inl rfl⟩
  | call _ r hi hz =>
    obtain ⟨-, -, -, -, memory, -⟩ := s.called_frame r
    exact ⟨not_imp_comm.mp (memory a) changed, hz, r, .inr hi⟩
  | _ => exact absurd rfl changed

/-- A register that reads otherwise after one write is the one written. -/
theorem State.eq_of_setReg_reg_ne {s : State} {r q : RegIdx} {v : Byte} (h : (s.setReg r v).reg q ≠ s.reg q) :
    q = r := by
  by_contra hq
  exact h (by simp [hq])

/-- Settles O36, effect by effect. -/
theorem registersWritten : Obligations.RegistersWritten := by
  intro i s t q hx changed
  cases exec_effect hx with
  | ldi r imm =>
    obtain rfl := State.eq_of_setReg_reg_ne changed
    exact .inl ⟨imm, rfl⟩
  | mul a b =>
    obtain rfl := State.eq_of_setReg_reg_ne changed
    exact .inr (.inl ⟨b, .inl rfl⟩)
  | add a b =>
    obtain rfl := State.eq_of_setReg_reg_ne changed
    exact .inr (.inl ⟨b, .inr rfl⟩)
  | pop r hr hl =>
    by_cases hq : q = 7
    · exact .inr (.inr (.inr ⟨hq, .inr ⟨r, .inr (.inl rfl)⟩⟩))
    · obtain rfl : q = r := State.eq_of_setReg_reg_ne (v := s.memRead s.sp) (by simpa [hq] using changed)
      exact .inr (.inr (.inl rfl))
  | popSp hl hv =>
    obtain rfl : q = 7 := by
      by_contra hq
      simp [hq] at changed
    exact .inr (.inr (.inl rfl))
  | ret hl =>
    exact .inr (.inr (.inr ⟨State.eq_of_setReg_reg_ne changed, .inl rfl⟩))
  | push r hz =>
    exact .inr (.inr (.inr ⟨State.eq_of_setReg_reg_ne changed, .inr ⟨r, .inl rfl⟩⟩))
  | call _ r hi hz =>
    exact .inr (.inr (.inr ⟨State.eq_of_setReg_reg_ne changed, .inr ⟨r, .inr (.inr hi)⟩⟩))
  | _ => exact absurd rfl changed

/-- An instruction appends to OUT what it would append to any other OUT, and does everything else alike: each effect is
the same constructor again. -/
theorem Effect.setOut {s t : State} {i : Instr} (h : Effect s i t) :
    ∃ new, t.out = s.out ++ new ∧
      ∀ other, Effect { s with out := other } i { t with out := other ++ new } := by
  have unchanged {t : State} (ho : t.out = s.out)
      (eff : ∀ other, Effect { s with out := other } i { t with out := other }) :
      ∃ new, t.out = s.out ++ new ∧ ∀ other, Effect { s with out := other } i { t with out := other ++ new } :=
    ⟨[], by simp [ho], fun other => by simpa using eff other⟩
  cases h with
  | prn r => exact ⟨[s.reg r], rfl, fun other => .prn r⟩
  | hlt => exact unchanged rfl fun _ => .hlt
  | ldi r imm => exact unchanged rfl fun _ => .ldi r imm
  | mul a b => exact unchanged rfl fun _ => .mul a b
  | add a b => exact unchanged rfl fun _ => .add a b
  | cmp a b => exact unchanged rfl fun _ => .cmp a b
  | push r h => exact unchanged rfl fun _ => .push r h
  | pushFault r h => exact unchanged rfl fun _ => .pushFault r h
  | pop r hr h => exact unchanged rfl fun _ => .pop r hr h
  | popSp h hv => exact unchanged rfl fun _ => .popSp h hv
  | popFault r h => exact unchanged rfl fun _ => .popFault r h
  | popSpFault h hv => exact unchanged rfl fun _ => .popSpFault h hv
  | ret h => exact unchanged rfl fun _ => .ret h
  | retFault h => exact unchanged rfl fun _ => .retFault h
  | call _ r hi h => exact unchanged rfl fun _ => .call _ r hi h
  | callFault _ r hi h => exact unchanged rfl fun _ => .callFault _ r hi h
  | jump _ r hc hi => exact unchanged rfl fun _ => .jump _ r hc hi
  | notTaken _ r hi => exact unchanged rfl fun _ => .notTaken _ r hi

/-- The end of a cycle does not read OUT. -/
theorem State.completeCycle_setOut (s : State) (other : List Byte) :
    ({ s with out := other } : State).completeCycle = { s.completeCycle with out := other } := by
  by_cases hf : s.rs = .faulted
  · rw [State.completeCycle_faulted hf, State.completeCycle_faulted (s := { s with out := other }) hf]
  · rw [State.completeCycle_counts hf, State.completeCycle_counts (s := { s with out := other }) hf]
    rfl

/-- Settles O38: neither the stages before execute, nor the effect, nor the end of the cycle read OUT. -/
theorem outIsNotRead : Obligations.OutIsNotRead := by
  intro s t other h
  rcases step_cases h with ⟨hr, rfl⟩ | ⟨hr, e, hb, rfl⟩ | ⟨hr, i, u, hb, hx, rfl⟩
  · refine ⟨[], by simp, ?_⟩
    rw [List.append_nil]
    exact step_stopped hr
  · refine ⟨[], by simp, ?_⟩
    rw [List.append_nil]
    exact step_error hr hb
  · obtain ⟨new, out, eff⟩ := (exec_effect hx).setOut
    refine ⟨new, by rw [State.completeCycle_eq, out], ?_⟩
    rw [step_ok (s := { s with out := other }) hr hb (exec_of_effect (eff other)), State.completeCycle_setOut]

/-- Settles O39: what a step can raise has INFO as R150 has it, and AluUnsupported never has. -/
theorem aluUnsupportedNeverRaised : Obligations.AluUnsupportedNeverRaised := by
  refine ⟨fun _ _ _ _ => rfl, fun s t h before after => ?_⟩
  by_cases hr : s.rs = .running
  · rcases step_cause hr h with infoOk | halt | cause
    · simp [after, Cause.infoOk] at infoOk
    · simp [after] at halt
    · exact before (cause.symm.trans after)
  · obtain rfl := eq_of_step_stopped hr h
    exact before after

/-! ## A store and the next fetch (20_memory.md R53) -/

/-- A fetch latches the byte at an address wherever that address is one of the three fetched. -/
theorem State.fetch_memRead {t : State} (hp : t.pc.toNat ≤ 253) (a : Addr) :
    ∃ l, t.fetch = .ok l ∧ (t.pc.setWidth 8 = a → l.ir = t.memRead a) ∧
      ((t.pc + 1).setWidth 8 = a → l.opa = t.memRead a) ∧ ((t.pc + 2).setWidth 8 = a → l.opb = t.memRead a) := by
  refine ⟨_, State.fetch_low hp, ?_, ?_, ?_⟩ <;> rintro rfl <;> rfl

theorem State.completeCycle_memRead (s : State) (a : Addr) : s.completeCycle.memRead a = s.memRead a := by
  rw [State.completeCycle_eq]
  rfl

/-- Settles O40: the store is O11's and O13's, and the fetch reads it. -/
theorem storeSeenByNextFetch : Obligations.StoreSeenByNextFetch := by
  intro s t ir opb r hir presented hz h hp
  obtain ⟨l, hl, seen⟩ := State.fetch_memRead hp (s.sp - 1)
  refine ⟨l, _, hl, ?_, ?_, seen⟩
  · rintro rfl
    obtain ⟨u, hu, -, stored, -⟩ := (pushStoresAtNewTop.2 r s).2 hz
    have hd := (pushStoresAtNewTop.1 (regByte r) opb).1 r (regByte_toNat r)
    obtain rfl := next_unique h (step_presents presented hd (exec_effect hu))
    rw [State.completeCycle_memRead, stored]
  · rintro rfl
    obtain ⟨u, hu, -, stored, -⟩ := (callPushesReturnAddress.2 r s).2 hz
    have hd := (callPushesReturnAddress.1 (regByte r) opb).1 r (regByte_toNat r)
    obtain rfl := next_unique h (step_presents presented hd (exec_effect hu))
    rw [State.completeCycle_memRead, stored presented.2.1]

end Sys2Proof.Machine

end

/-! # 20_memory.md, 70_reset_and_hazards.md: memory, reset, load and the host -/

section

namespace Sys2Proof.Machine

/-! ## Memory -/

/-- Settles O44: the read after a write, and reset's memory without a cell. -/
theorem readReturnsLastWrite : Obligations.ReadReturnsLastWrite :=
  ⟨fun s a b v => s.memWrite_memRead a b v, fun _ _ => rfl, fun _ _ _ => ⟨_, rfl⟩⟩

/-- The parts of the canonical form of a memory with a first cell. -/
theorem Memory.wfFrom_cons {lo : Nat} {c : Host.Cell} {m : Memory} (h : Memory.wfFrom lo (c :: m) = true) :
    c.2 ≠ Memory.unlisted ∧ Memory.wfFrom c.1 (c :: m) = true ∧ Memory.wfFrom (c.1 + 1) m = true := by
  simp only [Memory.wfFrom, Bool.and_eq_true, decide_eq_true_eq] at h ⊢
  obtain ⟨⟨⟨-, below⟩, listed⟩, tail⟩ := h
  exact ⟨listed, ⟨⟨⟨le_rfl, below⟩, listed⟩, tail⟩, tail⟩

theorem Memory.read_head (c : Host.Cell) (m : Memory) : Memory.read (c :: m) c.1 = c.2 := if_pos rfl

theorem Memory.read_tail {c : Host.Cell} (m : Memory) {a : Nat} (h : c.1 ≠ a) :
    Memory.read (c :: m) a = Memory.read m a := if_neg h

/-- The first cell of a canonical memory is listed in every canonical memory that reads alike, so it does not lie below
the other's first cell. -/
theorem Memory.first_le_of_read_eq {lo lo' : Nat} {c c' : Host.Cell} {m m' : Memory}
    (h : Memory.wfFrom lo (c :: m) = true) (h' : Memory.wfFrom lo' (c' :: m') = true)
    (same : ∀ a, Memory.read (c :: m) a = Memory.read (c' :: m') a) : c'.1 ≤ c.1 := by
  by_contra lower
  obtain ⟨listed, -, -⟩ := Memory.wfFrom_cons h
  obtain ⟨-, from', -⟩ := Memory.wfFrom_cons h'
  have atFirst := same c.1
  rw [Memory.read_head, Memory.read_below from' (by omega)] at atFirst
  exact listed atFirst

/-- Canonical memories that read alike at every number are equal: the first cells agree, and then the rests read alike. -/
theorem Memory.eq_of_read_eq {lo lo' : Nat} {m m' : Memory} (h : Memory.wfFrom lo m = true)
    (h' : Memory.wfFrom lo' m' = true) (same : ∀ a, Memory.read m a = Memory.read m' a) : m = m' := by
  induction m generalizing lo lo' m' with
  | nil =>
    cases m' with
    | nil => rfl
    | cons c' m' => exact absurd ((same c'.1).trans (Memory.read_head c' m')).symm (Memory.wfFrom_cons h').1
  | cons c m ih =>
    cases m' with
    | nil => exact absurd ((Memory.read_head c m).symm.trans (same c.1)) (Memory.wfFrom_cons h).1
    | cons c' m' =>
      obtain ⟨-, -, tail⟩ := Memory.wfFrom_cons h
      obtain ⟨-, -, tail'⟩ := Memory.wfFrom_cons h'
      have address : c.1 = c'.1 :=
        le_antisymm (Memory.first_le_of_read_eq h' h fun a => (same a).symm) (Memory.first_le_of_read_eq h h' same)
      have value : c.2 = c'.2 := by rw [← Memory.read_head c m, same, address, Memory.read_head]
      obtain rfl : c = c' := Prod.ext address value
      have rest (a : Nat) : Memory.read m a = Memory.read m' a := by
        by_cases ha : c.1 = a
        · rw [Memory.read_below tail (by omega), Memory.read_below tail' (by omega)]
        · rw [← Memory.read_tail m ha, same, Memory.read_tail m' ha]
      rw [ih tail tail' rest]

/-- Settles O45: above the 256 addresses canonical memories read alike anyway. -/
theorem memoryCanonical : Obligations.MemoryCanonical := by
  intro m m' h h' same
  refine Memory.eq_of_read_eq h h' fun a => ?_
  by_cases ha : a < 256
  · simpa [Nat.mod_eq_of_lt ha] using same (BitVec.ofNat 8 a)
  · rw [Memory.read_above h (by omega), Memory.read_above h' (by omega)]

/-! ## Reset and load -/

/-- Settles O46: the reset values of 10_state.md R34. -/
theorem resetValues : Obligations.ResetValues := by
  intro s
  have regs (q : RegIdx) (hq : q ≠ 7) : s.hostReset.reg q = 0 := (State.resetWith_reg s.cfg q).trans (if_neg hq)
  exact ⟨_, rfl, fun _ => rfl, regs, rfl, rfl, rfl, rfl, rfl, rfl, rfl, rfl, rfl, rfl⟩

theorem Memory.read_writeAll_zero (m : Memory) (image : List Byte) (a : Nat) :
    Memory.read (m.writeAll 0 image) a = if a < image.length then image.getD a 0 else Memory.read m a := by
  simp [Memory.read_writeAll]

/-- Settles O47: the limit of 256 bytes, and what the write of the image leaves at each address. -/
theorem loadContract : Obligations.LoadContract := by
  refine fun s image => ⟨State.load_of_gt, fun h => ⟨_, State.load_of_le h, fun a => ?_, fun _ _ => rfl, rfl, rfl, rfl,
    ⟨rfl, rfl, rfl, rfl, rfl⟩, fun wf => ?_⟩⟩
  · exact Memory.read_writeAll_zero s.mem image a.toNat
  · exact Memory.wf_writeAll image s.mem 0 (by omega) wf

/-- What an address reads as after reset and load: the image's byte, 0 where it has none. -/
theorem memRead_of_load {cfg : Config} {image : List Byte} {t : State}
    (h : (State.resetWith cfg).load image = some t) (a : Addr) : t.memRead a = image.getD a.toNat 0 := by
  obtain ⟨-, rfl⟩ := State.load_some h
  have read := Memory.read_writeAll_zero (State.resetWith cfg).mem image a.toNat
  by_cases ha : a.toNat < image.length
  · exact read.trans (if_pos ha)
  · rw [List.getD_eq_default _ _ (by omega)]
    exact read.trans (if_neg ha)

/-- Settles O48: reset leaves PC 0 and a running core, and the load writes the image from address 0. -/
theorem firstCycleFetchesImage : Obligations.FirstCycleFetchesImage := by
  intro cfg image t h
  obtain ⟨-, ht⟩ := State.load_some h
  have running : t.rs = .running := ht ▸ rfl
  have pc : t.pc = 0 := ht ▸ rfl
  have fetched : t.fetch = .ok ⟨image.getD 0 0, image.getD 1 0, image.getD 2 0⟩ := by
    rw [State.fetch_low (by simp [pc]), pc, memRead_of_load h, memRead_of_load h, memRead_of_load h]
    rfl
  refine ⟨rfl, running, fetched, fun empty guard => ?_⟩
  have noLimit : t.cycleLimitReached = false := by
    have cfgEq : t.cfg = cfg := ht ▸ rfl
    have cycEq : t.cyc = 0 := ht ▸ rfl
    cases hm : cfg.maxCycles with
    | none => exact State.cycleLimitReached_none (cfgEq ▸ hm)
    | some n =>
      have positive : n ≠ 0 := fun zero => guard (zero ▸ hm)
      rw [State.cycleLimitReached_some (cfgEq ▸ hm), cycEq]
      simpa using positive
  have zeros (a : Addr) : t.memRead a = 0 := by
    rw [memRead_of_load h, empty]
    rfl
  have presented : t.presents 0 0 0 :=
    ⟨State.mayStart_iff.mpr ⟨running, noLimit⟩, by simp [pc], zeros _, zeros _, zeros _⟩
  exact illegalOpcodeFaults t 0 0 0 presented (by decide)

/-! ## The host (70_reset_and_hazards.md R186) -/

/-- Settles O49, transaction by transaction, over the host's phase. -/
theorem hostProtocol : Obligations.HostProtocol := by
  rintro ⟨core, phase⟩
  refine ⟨rfl, ?_, ?_, ?_⟩
  · rintro image ⟨core', phase'⟩
    cases phase with
    | afterReset => simp [Session.apply, and_comm, eq_comm]
    | loaded | started => simp [Session.apply]
  · rintro ⟨core', phase'⟩
    cases phase with
    | afterReset | loaded => simp [Session.apply, State.start, and_comm, eq_comm]
    | started => simp [Session.apply]
  · rintro ⟨core', phase'⟩
    obtain ⟨t, ht⟩ := step_next core
    cases phase with
    | afterReset | loaded => simp [Session.apply]
    | started => simp [Session.apply, ht, and_comm, eq_comm]

/-- Settles O50: the table of 60_exceptions.md R150. -/
theorem causeCodes : Obligations.CauseCodes := rfl

/-! ## The text of OUT (41_control_load_output.md R105) -/

/-- Settles O51: one, two or three digits, by the size of the value. -/
theorem renderedDecimal : Obligations.RenderedDecimal := by
  intro v
  have lt := v.isLt
  refine ⟨decimalDigits v, rfl, ?_⟩
  unfold decimalDigits
  by_cases one : v.toNat < 10
  · simp [one]
    omega
  · by_cases two : v.toNat < 100
    · simp [one, two]
      omega
    · simp [one, two]
      omega

end Sys2Proof.Machine

end
